-- ==== Sys2Proof/Word.lean ====
section
/-! DEFINITION. The widths of Case2KKD CORE (00_scope.md R5, R8; 40_block_primitive.md R102): every value is an
unsigned word of fixed width, bit 0 least significant. -/

namespace Sys2Proof

/-- `u8`: a key, IV, input or output byte. -/
abbrev Byte := BitVec 8

/-- `u32`: a half of a block, a schedule word, a round key, a schedule constant (R5 `HALF_BITS`, `KW_BITS`). -/
abbrev Half := BitVec 32

/-- `u64`: a block, the chaining word, `IVWORD`, `K64` (R5 `BLOCK_BITS`). -/
abbrev Block := BitVec 64

/-- A command word as the host presents it (30_encoding.md R60). -/
abbrev CmdWord := BitVec 16

/-- A response word as the core gives it (30_encoding.md R67). -/
abbrev RespWord := BitVec 16

/-- The master key `KEY[0..15]` (10_state.md R23). -/
abbrev Key := Vector Byte 16

/-- The initialization vector `IV[0..7]` (10_state.md R24). -/
abbrev IvBytes := Vector Byte 8

/-- The round keys `RK[0..31]` (10_state.md R25). -/
abbrev RoundKeys := Vector Half 32

/-- The schedule constants `RC[0..31]` (40_block_primitive.md R97). -/
abbrev RcTable := Vector Half 32

end Sys2Proof
end

