-- ==== Sys2Proof/Config.lean ====
section
/-! DEFINITION. What the spec leaves OPEN for a model to take as an argument (00_scope.md R5; 92_eei_decisions.md D12,
D13; 93_implementation_defined.md U1, U2). Everything else in R5's table has a value and stands where it is used. -/

namespace Sys2Proof

/-- The two OPEN parameters of the hardware. The spec's defaults for both are `Machine.defaultParams`
(Machine/KeySchedule.lean); the functions that use a parameter take it as an argument. -/
structure Params where
  /-- `RC[0..31]`, the schedule constants (40_block_primitive.md R97). -/
  rc : RcTable
  /-- `KS`, "a total function from 16 key bytes to 32 round keys" (40_block_primitive.md R98), given the constants. -/
  ks : RcTable → Key → RoundKeys

/-- `ROUNDS` and `P_ROUNDS` of R5: both block functions run 32 rounds. -/
abbrev rounds : Nat := 32

end Sys2Proof
end

