-- ==== Sys2Proof/Machine/BlockPrimitive.lean ====
section
/-! DEFINITION. The Block Primitive: rotation, `G`, `Round`, the Feistel and the Placeholder block function
(40_block_primitive.md R91 to R96, R102). All of them are functions of their arguments alone (R90). -/

namespace Sys2Proof.Machine

/-- R91: `((a << n) AND 0xFFFFFFFF) OR (a >> (32 - n))`; used with `n` = 5 and 1. -/
def rotl32 (a : Half) (n : Nat) : Half := (a <<< n) ||| (a >>> (32 - n))

/-- R92: `G(a) = a XOR (rotl32(a, 5) AND rotl32(a, 1))`. -/
def g (a : Half) : Half := a ^^^ (rotl32 a 5 &&& rotl32 a 1)

/-- R93: `Round(L, R, k) = (R, G(L) XOR k)`; the old right half does not enter the new one. -/
def round (l r k : Half) : Half × Half := (r, g l ^^^ k)

/-- The loop of R94: one round for each round key, in order. -/
def feistelRounds : List Half → Half × Half → Half × Half
  | [], lr => lr
  | k :: ks, lr => feistelRounds ks (round lr.1 lr.2 k)

/-- R94: `left` is the high half, there is no final swap (20_memory.md R44). -/
def feistelBlock (x : Block) (rk : RoundKeys) : Block :=
  let lr := feistelRounds rk.toList (x.extractLsb' 32 32, x.extractLsb' 0 32)
  lr.1 ++ lr.2

/-- `n` rounds of `s <- (s << 1) XOR K64`, the shift masked to 64 bits. -/
def placeholderRounds (k : Block) : Nat → Block → Block
  | 0, s => s
  | n + 1, s => placeholderRounds k n ((s <<< 1) ^^^ k)

/-- R96. -/
def placeholderBlock (x k : Block) : Block := placeholderRounds k rounds x

end Sys2Proof.Machine
end

