-- ==== Sys2Proof/Syntax.lean ====
section
/-! DEFINITION. The commands of C2K-CMD version 1 as data: one constructor per row of spec/opcode_table.json, each
operand in a type that has exactly the values 30_encoding.md R62 gives it. -/

namespace Sys2Proof

/-- The channel operand `c` (R62): channel 0 encodes, channel 1 decodes (10_state.md R26). -/
inductive Channel where
  | enc
  | dec
  deriving DecidableEq, Repr

/-- The variant tag `v` (R62, 10_state.md R22): 0, 1, 2 and the reserved 3, each of which decodes. -/
inductive Variant where
  | ref
  | placeholder
  | feistel
  | reserved
  deriving DecidableEq, Repr

/-- The status register number `r` (R62, 10_state.md R28). -/
inductive StatusReg where
  | status
  | errs
  | dout0
  | dout1
  deriving DecidableEq, Repr

/-- The nine commands (30_encoding.md R63). -/
inductive Instr where
  /-- `NOP` -/
  | nop
  /-- `LDK i, b` -/
  | ldk (i : Fin 16) (b : Byte)
  /-- `LDIV i, b` -/
  | ldiv (i : Fin 8) (b : Byte)
  /-- `INIT v` -/
  | init (v : Variant)
  /-- `START c` -/
  | start (c : Channel)
  /-- `BYTE c, b` -/
  | byte (c : Channel) (b : Byte)
  /-- `END c` -/
  | endMsg (c : Channel)
  /-- `RDST r` -/
  | rdst (r : StatusReg)
  /-- `RESET` -/
  | reset
  deriving DecidableEq, Repr

end Sys2Proof
end

