-- ==== Sys2Proof/Decode.lean ====
section
/-! DEFINITION. The decoder of 30_encoding.md R71, the encoder of R61 to R63, the opcode map of R63 as a table, and the
host's view of the decoder. -/

namespace Sys2Proof

/-- Why a word is illegal (R64). Both kinds are refused alike, with `E_ILLEGAL`. -/
inductive IllegalWord where
  /-- `op` is in 0x8..0xE: no row at all. -/
  | unassignedOpcode
  /-- A bit that the row of `op` fixes has the other value (R65). -/
  | reservedBits
  deriving DecidableEq, Repr

/-- What R71's decoder returns: a decoded command or `ILLEGAL`. -/
inductive Decoded where
  | command (i : Instr)
  | illegal (why : IllegalWord)
  deriving DecidableEq, Repr

/-! ### Operand fields (R62) -/

/-- `c`: 0 the encode channel, 1 the decode channel. -/
def Channel.ofBits (v : BitVec 1) : Channel := if v = 0#1 then .enc else .dec

def Channel.toBits : Channel → BitVec 1
  | .enc => 0#1
  | .dec => 1#1

/-- `v`: 0 `REF`, 1 `PLACEHOLDER`, 2 `FEISTEL`, 3 reserved. -/
def Variant.ofBits (v : BitVec 2) : Variant :=
  if v = 0#2 then .ref else if v = 1#2 then .placeholder else if v = 2#2 then .feistel else .reserved

def Variant.toBits : Variant → BitVec 2
  | .ref => 0#2
  | .placeholder => 1#2
  | .feistel => 2#2
  | .reserved => 3#2

/-- `r`: 0 `STATUS`, 1 `ERRS`, 2 `DOUT[0]`, 3 `DOUT[1]`. -/
def StatusReg.ofBits (v : BitVec 2) : StatusReg :=
  if v = 0#2 then .status else if v = 1#2 then .errs else if v = 2#2 then .dout0 else .dout1

def StatusReg.toBits : StatusReg → BitVec 2
  | .status => 0#2
  | .errs => 1#2
  | .dout0 => 2#2
  | .dout1 => 3#2

/-- `i` of `LDK` = `word[11:8]`. -/
def keyIndexOf (w : CmdWord) : Fin 16 := (w.extractLsb' 8 4).toFin

/-- `i` of `LDIV` = `word[10:8]`. -/
def ivIndexOf (w : CmdWord) : Fin 8 := (w.extractLsb' 8 3).toFin

/-- `b` = `word[7:0]`. -/
def immByteOf (w : CmdWord) : Byte := w.extractLsb' 0 8

/-- `v` of `INIT` = `word[1:0]`. -/
def variantOf (w : CmdWord) : Variant := .ofBits (w.extractLsb' 0 2)

/-- `c` = `word[8]`. -/
def channelOf (w : CmdWord) : Channel := .ofBits (w.extractLsb' 8 1)

/-- `r` of `RDST` = `word[9:8]`. -/
def statusRegOf (w : CmdWord) : StatusReg := .ofBits (w.extractLsb' 8 2)

/-! ### The decoder -/

/-- R64's two kinds of illegal word, told apart by the opcode. -/
def illegalKind (w : CmdWord) : IllegalWord :=
  if 0x8#4 ≤ w.extractLsb' 12 4 ∧ w.extractLsb' 12 4 ≤ 0xE#4 then .unassignedOpcode else .reservedBits

/-- R71, case by case. -/
def decode (w : CmdWord) : Decoded :=
  if w = 0x0000#16 then .command .nop
  else if w.extractLsb' 12 4 = 0x1#4 then .command (.ldk (keyIndexOf w) (immByteOf w))
  else if w &&& 0xF800#16 = 0x2000#16 then .command (.ldiv (ivIndexOf w) (immByteOf w))
  else if w &&& 0xFFFC#16 = 0x3000#16 then .command (.init (variantOf w))
  else if w &&& 0xFEFF#16 = 0x4000#16 then .command (.start (channelOf w))
  else if w &&& 0xFE00#16 = 0x5000#16 then .command (.byte (channelOf w) (immByteOf w))
  else if w &&& 0xFEFF#16 = 0x6000#16 then .command (.endMsg (channelOf w))
  else if w &&& 0xFCFF#16 = 0x7000#16 then .command (.rdst (statusRegOf w))
  else if w = 0xF000#16 then .command .reset
  else .illegal (illegalKind w)

/-! ### The encoder -/

/-- An operand field of `n` bits put at bit `at` of a command word. -/
def placed {n : Nat} (v : BitVec n) (pos : Nat) : CmdWord := v.setWidth 16 <<< pos

/-- The word of a command: the row's fixed bits with each operand in its place (R61, R62). -/
def encode : Instr → CmdWord
  | .nop => 0x0000#16
  | .ldk i b => 0x1000#16 ||| placed (BitVec.ofFin (w := 4) i) 8 ||| placed b 0
  | .ldiv i b => 0x2000#16 ||| placed (BitVec.ofFin (w := 3) i) 8 ||| placed b 0
  | .init v => 0x3000#16 ||| placed v.toBits 0
  | .start c => 0x4000#16 ||| placed c.toBits 8
  | .byte c b => 0x5000#16 ||| placed c.toBits 8 ||| placed b 0
  | .endMsg c => 0x6000#16 ||| placed c.toBits 8
  | .rdst r => 0x7000#16 ||| placed r.toBits 8
  | .reset => 0xF000#16

/-! ### The opcode map of R63 -/

/-- The nine mnemonics. -/
inductive Mnemonic where
  | NOP
  | LDK
  | LDIV
  | INIT
  | START
  | BYTE
  | END
  | RDST
  | RESET
  deriving DecidableEq, Repr

/-- A row of R63's table: a word `w` selects it when `(w AND mask) = pattern`. -/
structure OpcodeRow where
  mnemonic : Mnemonic
  pattern : CmdWord
  mask : CmdWord
  deriving DecidableEq, Repr

def OpcodeRow.selects (row : OpcodeRow) (w : CmdWord) : Bool := w &&& row.mask == row.pattern

/-- R63, row by row. -/
def opcodeMap : List OpcodeRow :=
  [⟨.NOP, 0x0000#16, 0xFFFF#16⟩, ⟨.LDK, 0x1000#16, 0xF000#16⟩, ⟨.LDIV, 0x2000#16, 0xF800#16⟩,
   ⟨.INIT, 0x3000#16, 0xFFFC#16⟩, ⟨.START, 0x4000#16, 0xFEFF#16⟩, ⟨.BYTE, 0x5000#16, 0xFE00#16⟩,
   ⟨.END, 0x6000#16, 0xFEFF#16⟩, ⟨.RDST, 0x7000#16, 0xFCFF#16⟩, ⟨.RESET, 0xF000#16, 0xFFFF#16⟩]

/-- The mnemonic of a command. -/
def Instr.mnemonic : Instr → Mnemonic
  | .nop => .NOP
  | .ldk _ _ => .LDK
  | .ldiv _ _ => .LDIV
  | .init _ => .INIT
  | .start _ => .START
  | .byte _ _ => .BYTE
  | .endMsg _ => .END
  | .rdst _ => .RDST
  | .reset => .RESET

/-! ### The host's view -/

/-- The command word whose low `nbits` bits are those of `w`; every higher bit is zero. `none` if that is more than one
command word holds (entry 15). -/
def tableWord (nbits w : Nat) : Option CmdWord :=
  if w % 2 ^ nbits < 2 ^ 16 then some (BitVec.ofNat 16 (w % 2 ^ nbits)) else none

/-- What the decoder reads from an instruction of spec/opcode_table.json whose bits are `w`. -/
def decodeTableWord (nbits w : Nat) : Option Instr :=
  match tableWord nbits w with
  | none => none
  | some cw =>
    match decode cw with
    | .command i => some i
    | .illegal _ => none

end Sys2Proof
end

