-- ==== Sys2Proof/Machine/State.lean ====
section
/-! DEFINITION. The state of the machine as plain data: the core's record of 10_state.md R20, field for field, and the two
lists of words that pass between host and core (00_scope.md R6, 70_reset_and_hazards.md R189; entry 1). -/

namespace Sys2Proof.Machine

/-- `PHASE` (R21). The value 3 "is never taken", so it is no constructor (entry 8). -/
inductive Phase where
  | unconf
  | ready
  | fault
  deriving DecidableEq, Repr

/-- The context of one channel (R26): `ACTIVE[c]`, `CHAIN[c]`, `DOUT[c]`. -/
structure ChanCtx where
  active : Bool
  chain : Block
  dout : Byte
  deriving DecidableEq, Repr

/-- R20: "The state of the core is exactly the following record. Nothing else is state." -/
structure CoreState where
  /-- `PHASE` -/
  phase : Phase
  /-- `VAR` (R22); tag 3 is in the type because the field has 2 bits, no command stores it. -/
  var : Variant
  /-- `KEY[0..15]` -/
  key : Key
  /-- `KMASK`: bit `i` is set when `KEY[i]` has been loaded since reset -/
  kmask : BitVec 16
  /-- `IV[0..7]` -/
  iv : IvBytes
  /-- `IVMASK`: bit `i` is set when `IV[i]` has been loaded since reset -/
  ivmask : BitVec 8
  /-- `RK[0..31]` -/
  rk : RoundKeys
  /-- Channel 0, the encode channel -/
  chan0 : ChanCtx
  /-- Channel 1, the decode channel -/
  chan1 : ChanCtx
  /-- `ERRS` (R27) -/
  errs : BitVec 8
  deriving DecidableEq, Repr

/-- The machine: the core, the command words the host has presented and the core has not yet taken (first to run
first), and the response words given so far (oldest first). The last two are the model's own fields (entry 1). -/
structure State where
  core : CoreState
  pending : List CmdWord
  responses : List RespWord
  deriving DecidableEq, Repr

/-- R32: every field of the core at its reset value. -/
def CoreState.reset : CoreState where
  phase := .unconf
  var := .ref
  key := Vector.replicate 16 0x00#8
  kmask := 0x0000#16
  iv := Vector.replicate 8 0x00#8
  ivmask := 0x00#8
  rk := Vector.replicate 32 0x00000000#32
  chan0 := ⟨false, 0x0000000000000000#64, 0x00#8⟩
  chan1 := ⟨false, 0x0000000000000000#64, 0x00#8⟩
  errs := 0x00#8

/-- The machine right after power-on reset (70_reset_and_hazards.md R180): no command presented, no response given
(entry 1). -/
def State.reset : State where
  core := .reset
  pending := []
  responses := []

/-- Why the machine stops with a fault. -/
inductive Fault where
  /-- Raised by `BYTE` alone, in phase `READY` on an active channel while `VAR` is `REF` or the reserved tag:
  40_block_primitive.md R99 says of that "no other case exists", and R100 that the spec "gives it no meaning". SAFE: no
  run from reset reaches such a state, and a stop proves nothing about it (entry 7). -/
  | noBlockFunction
  deriving DecidableEq, Repr

/-- Why the machine refuses to give an instruction a meaning. A refusal of the HARDWARE is no such thing: it is a next
state (entry 4). -/
inductive Refusal where
  /-- Raised by an arm of `exec` that has no meaning yet; no arm is left so. SAFE. -/
  | notModelled (mnemonic : String)
  deriving DecidableEq, Repr

end Sys2Proof.Machine
end

