-- ==== Sys2Proof/Machine/Flags.lean ====
section
/-! DEFINITION. The refusal codes, the sticky flag set `ERRS` and the `STATUS` view (60_exceptions.md R151; 10_state.md
R27, R28). There are no other flags, and no command reads one to decide anything. -/

namespace Sys2Proof.Machine

/-- The seven kinds of refusal (R151). -/
inductive ErrCode where
  /-- `E_ILLEGAL`: the word is not a legal command (R152) -/
  | illegal
  /-- `E_FAULT`: the core is in phase `FAULT` (R153) -/
  | fault
  /-- `E_PHASE`: the command is not allowed in the current phase (R154) -/
  | phase
  /-- `E_LEN`: `INIT` with an incomplete key or IV (R155) -/
  | len
  /-- `E_VARIANT`: `INIT` with variant 0 or 3 (R156) -/
  | variant
  /-- `E_BUSY`: `START` on a channel that is already in a message (R157) -/
  | busy
  /-- `E_IDLE`: `BYTE` or `END` on a channel that is not in a message (R158) -/
  | idle
  deriving DecidableEq, Repr

/-- The status code of a refusal (R151). -/
def ErrCode.code : ErrCode → Nat
  | .illegal => 1
  | .fault => 2
  | .phase => 3
  | .len => 4
  | .variant => 5
  | .busy => 6
  | .idle => 7

/-- R150: `1 << (code(E_x) - 1)`. -/
def ErrCode.bit (e : ErrCode) : BitVec 8 := 1#8 <<< (e.code - 1)

/-- R150: `ERRS <- ERRS OR (1 << (code(E_x) - 1))`. -/
def raised (errs : BitVec 8) (e : ErrCode) : BitVec 8 := errs ||| e.bit

/-- The encoding of `PHASE` (10_state.md R20). -/
def Phase.toBits : Phase → BitVec 2
  | .unconf => 0#2
  | .ready => 1#2
  | .fault => 2#2

/-- `KFULL` of R28, and half of `INIT`'s length check (42_session_control.md R133). -/
def CoreState.kfull (c : CoreState) : Bool := c.kmask == 0xFFFF#16

/-- `IVFULL` of R28, and the other half of `INIT`'s length check. -/
def CoreState.ivfull (c : CoreState) : Bool := c.ivmask == 0xFF#8

/-- R28: the read-only `STATUS` view, from bit 7 down: `IVFULL`, `KFULL`, `ACT1`, `ACT0`, `VAR`, `PHASE`. -/
def CoreState.statusView (c : CoreState) : Byte :=
  BitVec.ofBool c.ivfull ++ BitVec.ofBool c.kfull ++ BitVec.ofBool c.chan1.active ++ BitVec.ofBool c.chan0.active
    ++ c.var.toBits ++ c.phase.toBits

end Sys2Proof.Machine
end

