-- ==== Sys2Proof/Machine/Operands.lean ====
section
/-! DEFINITION. The index spaces a command addresses and nothing else does (20_memory.md R40), and the places where bytes
are put together into words (20_memory.md R41 to R43). -/

namespace Sys2Proof.Machine

/-! ### Index spaces -/

/-- The context of channel `c`. -/
def CoreState.chan (s : CoreState) : Channel → ChanCtx
  | .enc => s.chan0
  | .dec => s.chan1

/-- Replaces the context of channel `c`. -/
def CoreState.setChan (s : CoreState) (c : Channel) (x : ChanCtx) : CoreState :=
  match c with
  | .enc => { s with chan0 := x }
  | .dec => { s with chan1 := x }

/-- Key bytes, write-only: `KEY[i] <- b; KMASK <- KMASK OR (1 << i)` (42_session_control.md R131). -/
def CoreState.loadKeyByte (s : CoreState) (i : Fin 16) (b : Byte) : CoreState :=
  { s with key := s.key.set i.val b, kmask := s.kmask ||| (1#16 <<< i.val) }

/-- IV bytes, write-only: `IV[i] <- b; IVMASK <- IVMASK OR (1 << i)` (42_session_control.md R132). -/
def CoreState.loadIvByte (s : CoreState) (i : Fin 8) (b : Byte) : CoreState :=
  { s with iv := s.iv.set i.val b, ivmask := s.ivmask ||| (1#8 <<< i.val) }

/-- Status registers, read-only (10_state.md R28, 42_session_control.md R134). -/
def CoreState.statusReg (s : CoreState) : StatusReg → Byte
  | .status => s.statusView
  | .errs => s.errs
  | .dout0 => s.chan0.dout
  | .dout1 => s.chan1.dout

/-! ### Byte order -/

/-- `IVWORD`: the IV read with its first byte most significant (20_memory.md R41). -/
def ivWord (iv : IvBytes) : Block := iv[0] ++ iv[1] ++ iv[2] ++ iv[3] ++ iv[4] ++ iv[5] ++ iv[6] ++ iv[7]

/-- `W[j]`: key bytes `4j` to `4j+3`, first byte most significant (20_memory.md R42). -/
def keyWord (key : Key) (j : Fin 4) : Half :=
  key[4 * j.val] ++ key[4 * j.val + 1] ++ key[4 * j.val + 2] ++ key[4 * j.val + 3]

/-- `K64`: the first eight key bytes, first byte most significant (20_memory.md R43). -/
def k64 (key : Key) : Block := key[0] ++ key[1] ++ key[2] ++ key[3] ++ key[4] ++ key[5] ++ key[6] ++ key[7]

end Sys2Proof.Machine
end

