-- ==== Sys2Proof/Machine/KeySchedule.lean ====
section
/-! DEFINITION. The schedule constants and the key schedule (40_block_primitive.md R97, R98). Both are OPEN parameters of
the spec; here are the defaults it gives them (entries 5, 6). -/

namespace Sys2Proof.Machine

/-- Five consecutive bits `z[i], …, z[i+4]` of the sequence of R97. -/
structure ZWindow where
  z0 : Bool
  z1 : Bool
  z2 : Bool
  z3 : Bool
  z4 : Bool
  deriving DecidableEq, Repr

/-- The next `n` bits of R97's recurrence `z[i+5] = z[i+2] XOR z[i]`. -/
def zBits : Nat → ZWindow → List Bool
  | 0, _ => []
  | n + 1, w => w.z0 :: zBits n ⟨w.z1, w.z2, w.z3, w.z4, w.z2 ^^ w.z0⟩

theorem zBits_length (n : Nat) (w : ZWindow) : (zBits n w).length = n := by
  induction n generalizing w with
  | zero => rfl
  | succ n ih => simp [zBits, ih]

/-- R97: `RC[i] = 0xFFFFFFFC XOR z[i]`. -/
def rcEntry (z : Bool) : Half := 0xFFFFFFFC#32 ^^^ (BitVec.ofBool z).setWidth 32

/-- R97's default table, with the seed `z[0..4] = 1, 1, 1, 1, 1` (entry 5). -/
def rcDefault : RcTable :=
  ⟨((zBits 32 ⟨true, true, true, true, true⟩).map rcEntry).toArray, by simp [zBits_length]⟩

/-- The four words of R98. -/
structure ScheduleWords where
  w0 : Half
  w1 : Half
  w2 : Half
  w3 : Half
  deriving DecidableEq, Repr

/-- The loop of R98, one constant at a time: emit a round key, rotate the words, the folded word enters last. -/
def scheduleRounds : List Half → ScheduleWords → List Half
  | [], _ => []
  | c :: cs, w =>
    let et := round w.w1 w.w0 c
    et.1 :: scheduleRounds cs ⟨w.w1, w.w2, w.w3, et.2⟩

theorem scheduleRounds_length (cs : List Half) (w : ScheduleWords) : (scheduleRounds cs w).length = cs.length := by
  induction cs generalizing w with
  | nil => rfl
  | cons c cs ih => simp [scheduleRounds, ih]

/-- The words the schedule starts from (20_memory.md R42). -/
def startWords (key : Key) : ScheduleWords := ⟨keyWord key 0, keyWord key 1, keyWord key 2, keyWord key 3⟩

/-- R98's default `KS`, for any constants (entry 6). -/
def keySchedule (rc : RcTable) (key : Key) : RoundKeys :=
  ⟨(scheduleRounds rc.toList (startWords key)).toArray, by simp [scheduleRounds_length]⟩

/-- The values the OPEN parameters take in the machine that `exec` runs: the spec's defaults (entries 5, 6). -/
def defaultParams : Params := ⟨rcDefault, keySchedule⟩

end Sys2Proof.Machine
end

