-- ==== Sys2Proof/Machine/Chainer.lean ====
section
/-! DEFINITION. The Keystream Chainer: the block function a session uses and the byte step (40_block_primitive.md R99;
41_chainer.md R113, R114). -/

namespace Sys2Proof.Machine

/-- R99: the function `BYTE` applies to the chaining word. For the other two tags no case exists (entry 7). -/
def CoreState.blockFn (s : CoreState) : Option (Block → Block) :=
  match s.var with
  | .feistel => some fun x => feistelBlock x s.rk
  | .placeholder => some fun x => placeholderBlock x (k64 s.key)
  | .ref => none
  | .reserved => none

/-- Step 2 of R113: "its most-significant byte" (20_memory.md R45). -/
def keystreamByte (ks : Block) : Byte := ks.extractLsb' 56 8

/-- The ciphertext byte of one step: the output when encoding, the input when decoding (R113). -/
def ciphertextByte (c : Channel) (input output : Byte) : Byte :=
  match c with
  | .enc => output
  | .dec => input

/-- Step 4 of R113: shift left by 8, the ciphertext byte into the low 8 bits (20_memory.md R45). -/
def nextChain (chain : Block) (ct : Byte) : Block := (chain <<< 8) ||| ct.setWidth 64

/-- `CFB_STEP` of R113 for a block function: the output byte and the next chaining word. The channel is the
direction (R111). -/
def cfbStep (blk : Block → Block) (c : Channel) (chain : Block) (b : Byte) : Byte × Block :=
  let o := b ^^^ keystreamByte (blk chain)
  (o, nextChain chain (ciphertextByte c b o))

/-- `RUN` of R114 from a given chaining word: the output bytes of a message. -/
def runBytes (blk : Block → Block) (c : Channel) : Block → List Byte → List Byte
  | _, [] => []
  | chain, b :: m =>
    let oc := cfbStep blk c chain b
    oc.1 :: runBytes blk c oc.2 m

/-- The chaining word after the bytes of a message. -/
def chainAfter (blk : Block → Block) (c : Channel) : Block → List Byte → Block
  | chain, [] => chain
  | chain, b :: m => chainAfter blk c (cfbStep blk c chain b).2 m

end Sys2Proof.Machine
end

