-- ==== Sys2Proof/Machine/Ops.lean ====
section
/-! DEFINITION. The operations every command shares: taking the next presented word, the response, the refusal with the
order of its checks, and reset (00_scope.md R9; 30_encoding.md R67; 60_exceptions.md R150, R159; 42_session_control.md
R135). -/

namespace Sys2Proof.Machine

/-! ### The command interface -/

/-- The next command word and the state with that word taken; `none` when the host has presented nothing. -/
def fetch (s : State) : Option (CmdWord × State) :=
  match s.pending with
  | [] => none
  | w :: rest => some (w, { s with pending := rest })

/-- The host presents `w` so that it is the next word taken. -/
def present (w : CmdWord) (s : State) : State := { s with pending := w :: s.pending }

/-- The response word `status[3:0] ‖ 0000 ‖ data[7:0]` (R67). -/
def respWord (status : BitVec 4) (data : Byte) : RespWord := status ++ 0#4 ++ data

/-- `respond(status, data)` of R9. -/
def respond (status : BitVec 4) (data : Byte) (s : State) : State :=
  { s with responses := s.responses ++ [respWord status data] }

/-- A performed command: the core's new record, and `respond(OK, data)`. -/
def performed (core : CoreState) (data : Byte) (s : State) : Host.Outcome State Fault Refusal :=
  .next (respond 0#4 data { s with core := core })

/-! ### Taking a refusal (R150): the only exception the hardware has. It saves nothing and has no handler (R160). -/

/-- The whole effect of `refuse(E_x)` on the core: its `ERRS` bit, and `PHASE <- FAULT` for `E_LEN`. -/
def CoreState.refused (c : CoreState) (e : ErrCode) : CoreState :=
  { c with errs := raised c.errs e, phase := if e = .len then .fault else c.phase }

/-- `refuse(E_x)`: its effect on the core, and `respond(code(E_x), 0x00)`. -/
def refuse (e : ErrCode) (s : State) : State :=
  respond (BitVec.ofNat 4 e.code) 0x00#8 { s with core := s.core.refused e }

/-- A command whose checks decide `r`: refused with that code, or performed. -/
def unlessRefused (r : Option ErrCode) (s : State) (perform : Host.Outcome State Fault Refusal) :
    Host.Outcome State Fault Refusal :=
  match r with
  | some e => .next (refuse e s)
  | none => perform

/-! ### The checks, in the order of R159: each list of them is joined with `Option.or`, so the first that fails decides. -/

/-- Steps 3 and 4 of R159: `FAULT` first, then the phase the command needs (`none` for a command that needs none). -/
def phaseRefusal (needed : Option Phase) (c : CoreState) : Option ErrCode :=
  if c.phase = .fault then some .fault
  else if needed = none ∨ needed = some c.phase then none
  else some .phase

/-- Step 5 of R159: `INIT` of variant 0 or 3 (42_session_control.md R133). -/
def variantRefusal (v : Variant) : Option ErrCode :=
  match v with
  | .ref => some .variant
  | .placeholder => none
  | .feistel => none
  | .reserved => some .variant

/-- Step 6 of R159: `INIT` with an incomplete key or IV (42_session_control.md R133). -/
def lengthRefusal (c : CoreState) : Option ErrCode := if c.kfull && c.ivfull then none else some .len

/-- Step 7 of R159 for `START` (41_chainer.md R110). -/
def busyRefusal (x : ChanCtx) : Option ErrCode := if x.active then some .busy else none

/-- Step 7 of R159 for `BYTE` and `END` (41_chainer.md R111, R112). -/
def idleRefusal (x : ChanCtx) : Option ErrCode := if x.active then none else some .idle

/-! ### Leaving `FAULT` and every other phase -/

/-- Every field of the core to its reset value (R135, 10_state.md R32). It is the only way out of `FAULT`: there is no
return from a refusal (60_exceptions.md R161). -/
def CoreState.destroyed (_ : CoreState) : CoreState := .reset

/-- The core with no command to take: it waits, and nothing changes (60_exceptions.md R160; entry 2). -/
def execIdle (s : State) : Host.Outcome State Fault Refusal := .next s

/-- An illegal word: `E_ILLEGAL` in every phase, before every other check (60_exceptions.md R152, R159 step 1). -/
def execIllegal (s : State) : Host.Outcome State Fault Refusal := .next (refuse .illegal s)

end Sys2Proof.Machine
end

