-- ==== Sys2Proof/Machine/Message.lean ====
section
/-! DEFINITION. The message commands `START`, `BYTE`, `END` (41_chainer.md R110 to R112). -/

namespace Sys2Proof.Machine

/-- `START c` (R110): `CHAIN[c] <- IVWORD`, `ACTIVE[c] <- 1`; `DOUT[c]` stays. -/
def execStart (c : Channel) (s : State) : Host.Outcome State Fault Refusal :=
  let x := s.core.chan c
  unlessRefused ((phaseRefusal (some .ready) s.core).or (busyRefusal x)) s
    (performed (s.core.setChan c { x with active := true, chain := ivWord s.core.iv }) 0x00#8 s)

/-- The performed part of `BYTE c, b` (R111), once the session's block function is known. -/
def chainByte (blk : Block → Block) (c : Channel) (b : Byte) (s : State) : Host.Outcome State Fault Refusal :=
  let x := s.core.chan c
  let oc := cfbStep blk c x.chain b
  performed (s.core.setChan c { x with chain := oc.2, dout := oc.1 }) oc.1 s

/-- `BYTE c, b` (R111). A session without a block function is no case of R99: entry 7. -/
def execByte (c : Channel) (b : Byte) (s : State) : Host.Outcome State Fault Refusal :=
  unlessRefused ((phaseRefusal (some .ready) s.core).or (idleRefusal (s.core.chan c))) s
    (match s.core.blockFn with
    | some blk => chainByte blk c b s
    | none => .fault .noBlockFunction)

/-- `END c` (R112): `ACTIVE[c] <- 0`, `CHAIN[c] <- 0`; `DOUT[c]` stays. -/
def execEnd (c : Channel) (s : State) : Host.Outcome State Fault Refusal :=
  let x := s.core.chan c
  unlessRefused ((phaseRefusal (some .ready) s.core).or (idleRefusal x)) s
    (performed (s.core.setChan c { x with active := false, chain := 0x0000000000000000#64 }) 0x00#8 s)

end Sys2Proof.Machine
end

