-- ==== Sys2Proof/Machine/Session.lean ====
section
/-! DEFINITION. The commands that build, inspect and destroy a session: `NOP`, `LDK`, `LDIV`, `INIT`, `RDST`, `RESET`
(42_session_control.md R130 to R135). -/

namespace Sys2Proof.Machine

/-- `NOP` (R130). -/
def execNop (s : State) : Host.Outcome State Fault Refusal :=
  unlessRefused (phaseRefusal none s.core) s (performed s.core 0x00#8 s)

/-- `LDK i, b` (R131). -/
def execLdk (i : Fin 16) (b : Byte) (s : State) : Host.Outcome State Fault Refusal :=
  unlessRefused (phaseRefusal (some .unconf) s.core) s (performed (s.core.loadKeyByte i b) 0x00#8 s)

/-- `LDIV i, b` (R132). -/
def execLdiv (i : Fin 8) (b : Byte) (s : State) : Host.Outcome State Fault Refusal :=
  unlessRefused (phaseRefusal (some .unconf) s.core) s (performed (s.core.loadIvByte i b) 0x00#8 s)

/-- The session `INIT v` constructs: `VAR <- v`, `RK <- KS(KEY)` for `FEISTEL` only, `PHASE <- READY` (R133). -/
def CoreState.constructed (p : Params) (c : CoreState) (v : Variant) : CoreState :=
  { c with var := v, rk := if v = .feistel then p.ks p.rc c.key else c.rk, phase := .ready }

/-- The checks of `INIT v`, in the order of R133. -/
def initRefusal (v : Variant) (c : CoreState) : Option ErrCode :=
  (phaseRefusal (some .unconf) c).or ((variantRefusal v).or (lengthRefusal c))

/-- `INIT v` (R133) for any choice of the OPEN parameters. -/
def initWith (p : Params) (v : Variant) (s : State) : Host.Outcome State Fault Refusal :=
  unlessRefused (initRefusal v s.core) s (performed (s.core.constructed p v) 0x00#8 s)

/-- `INIT v` (R133) with the spec's defaults for the OPEN parameters (entries 5, 6). -/
def execInit (v : Variant) (s : State) : Host.Outcome State Fault Refusal := initWith defaultParams v s

/-- `RDST r` (R134): no checks, writes nothing. -/
def execRdst (r : StatusReg) (s : State) : Host.Outcome State Fault Refusal := performed s.core (s.core.statusReg r) s

/-- `RESET` (R135): no checks. The words the host has still to present and the responses it has had are not the core's
and stay (entry 1). -/
def execReset (s : State) : Host.Outcome State Fault Refusal := performed s.core.destroyed 0x00#8 s

end Sys2Proof.Machine
end

