-- ==== Sys2Proof/Machine/Dispatch.lean ====
section
/-! DEFINITION. One arm per constructor of `Instr`. -/

namespace Sys2Proof.Machine

def exec (i : Instr) (s : State) : Host.Outcome State Fault Refusal :=
  match i with
  | .nop => Sys2Proof.Machine.execNop s
  | .ldk k b => Sys2Proof.Machine.execLdk k b s
  | .ldiv k b => Sys2Proof.Machine.execLdiv k b s
  | .init v => Sys2Proof.Machine.execInit v s
  | .start c => Sys2Proof.Machine.execStart c s
  | .byte c b => Sys2Proof.Machine.execByte c b s
  | .endMsg c => Sys2Proof.Machine.execEnd c s
  | .rdst r => Sys2Proof.Machine.execRdst r s
  | .reset => Sys2Proof.Machine.execReset s

end Sys2Proof.Machine
end

