-- ==== Sys2Proof/Machine/Step.lean ====
section
/-! DEFINITION. One step of the machine: it takes the next presented word and carries it out, atomically (00_scope.md R6;
20_memory.md R47, R49). -/

namespace Sys2Proof.Machine

/-- A legal word runs its command, an illegal one is refused (30_encoding.md R64), and with no word presented the core
waits (entry 2). -/
def step (s : State) : Host.Outcome State Fault Refusal :=
  match fetch s with
  | none => execIdle s
  | some (w, t) =>
    match decode w with
    | .command i => exec i t
    | .illegal _ => execIllegal t

/-- The host presents the instruction whose bits are `w` before every word it has presented already, so that the next
step takes it. An instruction that fits in no command word is not presented (entry 15). -/
def State.withFetchWord (s : State) (nbits w : Nat) : State :=
  match tableWord nbits w with
  | some cw => present cw s
  | none => s

end Sys2Proof.Machine
end

