-- ==== Sys2Proof/Machine/Pseudo.lean ====
section
/-! DEFINITION. The pseudo-instructions of 30_encoding.md R70, the parts of a response word (R67), and runs of command
lists (70_reset_and_hazards.md R189). -/

namespace Sys2Proof.Machine

/-! ### Response words (R67) -/

/-- `status`, bits 15:12. -/
def respStatus (r : RespWord) : BitVec 4 := r.extractLsb' 12 4

/-- `data`, bits 7:0. -/
def respData (r : RespWord) : Byte := r.extractLsb' 0 8

/-! ### Pseudo-instructions -/

/-- The seven pseudo-instructions of R70. -/
inductive Pseudo where
  /-- `LOADKEY k0, …, k15` -/
  | loadKey (k : Key)
  /-- `LOADIV v0, …, v7` -/
  | loadIv (iv : IvBytes)
  /-- `SETUP v, k0..k15, v0..v7` -/
  | setup (v : Variant) (k : Key) (iv : IvBytes)
  /-- `ENCB b` -/
  | encb (b : Byte)
  /-- `DECB b` -/
  | decb (b : Byte)
  /-- `ENCODE b0, …, b(n-1)` -/
  | encode (m : List Byte)
  /-- `DECODE b0, …, b(n-1)` -/
  | decode (m : List Byte)
  deriving DecidableEq, Repr

/-- `LDK 0, k0; …; LDK 15, k15`. -/
def loadKeyCommands (k : Key) : List Instr := (List.finRange 16).map fun i => .ldk i k[i]

/-- `LDIV 0, v0; …; LDIV 7, v7`. -/
def loadIvCommands (iv : IvBytes) : List Instr := (List.finRange 8).map fun i => .ldiv i iv[i]

/-- `START c; BYTE c, b0; …; BYTE c, b(n-1); END c`. -/
def messageCommands (c : Channel) (m : List Byte) : List Instr := .start c :: m.map (.byte c) ++ [.endMsg c]

/-- The expansion column of R70. -/
def Pseudo.expand : Pseudo → List Instr
  | .loadKey k => loadKeyCommands k
  | .loadIv iv => loadIvCommands iv
  | .setup v k iv => .reset :: loadKeyCommands k ++ loadIvCommands iv ++ [.init v]
  | .encb b => [.byte .enc b]
  | .decb b => [.byte .dec b]
  | .encode m => messageCommands .enc m
  | .decode m => messageCommands .dec m

/-- R70: the result of `ENCODE` or `DECODE`, "the list of the `data` bytes of its `BYTE` responses, in order", from the
responses to its whole expansion. -/
def messageResult (responses : List RespWord) : List Byte := (responses.drop 1).dropLast.map respData

/-! ### Runs (R189) -/

/-- A list of commands, each carried out in the state the one before it left (20_memory.md R49); stops at the first
command that has no next state. -/
def execAll : List Instr → State → Host.Outcome State Fault Refusal
  | [], s => .next s
  | i :: is, s =>
    match exec i s with
    | .next t => execAll is t
    | .fault r => .fault r
    | .refused r => .refused r

end Sys2Proof.Machine
end

