-- ==== Sys2Proof/Safety.lean ====
section
/-! DEFINITION. What claims about the machine are said in: the invariants of 10_state.md R33, runs that never stop, and
spec-side readings of rules that are stated over all commands (60_exceptions.md R159, 42_session_control.md R137,
20_memory.md R50, 40_block_primitive.md R95, 41_chainer.md R120). -/

namespace Sys2Proof.Safety

open Sys2Proof.Machine

/-- The invariants of R33, for a choice of the OPEN parameters. Item 1 is in the type of `phase`; the second half of item
6 and item 8 are about two states and are statements of their own. The last three are said by R22, R25 and U11. -/
structure Inv (p : Params) (c : CoreState) : Prop where
  /-- Item 2. -/
  ready_complete : c.phase = .ready → c.kmask = 0xFFFF#16 ∧ c.ivmask = 0xFF#8
  /-- Item 2. -/
  ready_variant : c.phase = .ready → c.var = .placeholder ∨ c.var = .feistel
  /-- Item 3. -/
  feistel_schedule : c.phase = .ready → c.var = .feistel → c.rk = p.ks p.rc c.key
  /-- Item 4. -/
  unready_channels : c.phase ≠ .ready → c.chan0 = ⟨false, 0#64, 0#8⟩ ∧ c.chan1 = ⟨false, 0#64, 0#8⟩
  /-- Item 4. -/
  unready_schedule : c.phase ≠ .ready → c.rk = Vector.replicate 32 0#32
  /-- Item 5. -/
  idle_chain : ∀ ch, (c.chan ch).active = false → (c.chan ch).chain = 0#64
  /-- Item 6, first half. -/
  errs_top : c.errs.getLsbD 7 = false
  /-- Item 7. -/
  fault_len : c.phase = .fault → c.errs.getLsbD 3 = true
  /-- R22: "`VAR` holds 0 only while `PHASE` is not `READY`", and nothing else then. -/
  unready_variant : c.phase ≠ .ready → c.var = .ref
  /-- R25: "In a `PLACEHOLDER` session `RK` is neither written nor read and holds its reset value, all zero". -/
  placeholder_schedule : c.var = .placeholder → c.rk = Vector.replicate 32 0#32
  /-- U11: a key or IV byte whose mask bit is clear is zero. -/
  unloaded_zero : (∀ i : Fin 16, c.kmask.getLsbD i = false → c.key[i] = 0#8) ∧
    (∀ i : Fin 8, c.ivmask.getLsbD i = false → c.iv[i] = 0#8)

/-- A state from which no run stops, with a fault or with a refusal of the model. -/
def NeverStops (s : State) : Prop := ∀ n, ∃ t, Sys2Proof.core.run n s = .next t

/-- A state that some list of presented words leads to from reset (R33, R189). -/
def Reachable (s : State) : Prop :=
  ∃ words n, Sys2Proof.core.run n { State.reset with pending := words } = .next s

/-- `exec` for any choice of the OPEN parameters: only `INIT` uses them. -/
def execWith (p : Params) (i : Instr) (s : State) : Host.Outcome State Fault Refusal :=
  match i with
  | .init v => initWith p v s
  | j => exec j s

/-- The word is the one command that destroys a session. -/
def isReset (w : CmdWord) : Prop := decode w = .command .reset

/-! ### The order of checks (R159) -/

/-- The code of the first failing check, 0 if none fails. -/
def firstFailing : List (Bool × Nat) → Nat
  | [] => 0
  | (true, code) :: _ => code
  | (false, _) :: rest => firstFailing rest

/-- Step 3 of R159: every command but `RESET` and `RDST` fails in phase `FAULT`; those two have "no further checks". -/
def inFault (i : Instr) (c : CoreState) : Bool :=
  match i with
  | .reset | .rdst _ => false
  | _ => decide (c.phase = .fault)

/-- Step 4 of R159, phase permission: loads and `INIT` need `UNCONF`, message commands need `READY`. -/
def wrongPhase (i : Instr) (c : CoreState) : Bool :=
  match i with
  | .ldk _ _ | .ldiv _ _ | .init _ => decide (c.phase ≠ .unconf)
  | .start _ | .byte _ _ | .endMsg _ => decide (c.phase ≠ .ready)
  | .nop | .rdst _ | .reset => false

/-- Step 5 of R159, operand value. -/
def wrongVariant (i : Instr) : Bool :=
  match i with
  | .init .ref | .init .reserved => true
  | _ => false

/-- Step 6 of R159, completeness. -/
def incomplete (i : Instr) (c : CoreState) : Bool :=
  match i with
  | .init _ => decide (c.kmask ≠ 0xFFFF#16 ∨ c.ivmask ≠ 0xFF#8)
  | _ => false

/-- Step 7 of R159, channel state of `START`. -/
def channelBusy (i : Instr) (c : CoreState) : Bool :=
  match i with
  | .start ch => (c.chan ch).active
  | _ => false

/-- Step 7 of R159, channel state of `BYTE` and `END`. -/
def channelIdle (i : Instr) (c : CoreState) : Bool :=
  match i with
  | .byte ch _ | .endMsg ch => !(c.chan ch).active
  | _ => false

/-- R159's list for a legal command, steps 3 to 7, each check with the code it gives. -/
def orderedChecks (i : Instr) (c : CoreState) : List (Bool × Nat) :=
  [(inFault i c, 2), (wrongPhase i c, 3), (wrongVariant i, 5), (incomplete i c, 4), (channelBusy i c, 6), (channelIdle i c, 7)]

/-- The status code of the response to a presented word, decode being the first check (step 1). -/
def statusCode (w : CmdWord) (c : CoreState) : Nat :=
  match decode w with
  | .illegal _ => 1
  | .command i => firstFailing (orderedChecks i c)

/-! ### What two runs have in common -/

/-- The session of a core: what R137 says never changes, and what both channels share read-only (R50). -/
structure Session where
  phase : Phase
  var : Variant
  key : Key
  iv : IvBytes
  rk : RoundKeys
  deriving DecidableEq, Repr

def sessionOf (c : CoreState) : Session := ⟨c.phase, c.var, c.key, c.iv, c.rk⟩

/-- The state the host can read with `RDST` (R30). -/
def readable (c : CoreState) : Byte × Byte × Byte × Byte := (c.statusView, c.errs, c.chan0.dout, c.chan1.dout)

/-- The channel a message command is on. -/
def channelOfCommand : Instr → Option Channel
  | .start c | .byte c _ | .endMsg c => some c
  | _ => none

/-- The commands R50 speaks of: message commands on either channel, `NOP` and `RDST`. -/
def isStreamCommand (i : Instr) : Bool :=
  match i with
  | .start _ | .byte _ _ | .endMsg _ | .nop | .rdst _ => true
  | _ => false

/-- A stream without the message commands of the other channel. -/
def streamOf (c : Channel) (cmds : List Instr) : List Instr :=
  cmds.filter fun i => match channelOfCommand i with
    | some d => d == c
    | none => true

/-- The responses to the message commands on channel `c` in a run of `cmds`. -/
def channelResponses (c : Channel) : List Instr → State → List RespWord
  | [], _ => []
  | i :: is, s =>
    match exec i s with
    | .next t => (if channelOfCommand i = some c then t.responses.drop s.responses.length else []) ++ channelResponses c is t
    | _ => []

/-! ### Words and lanes -/

/-- R95: `Lane(a, k)`. -/
def lane (a : Half) (k : List Half) : Half := k.foldl (fun u t => g u ^^^ t) a

/-- A row of bytes read with its first byte most significant, as a 64-bit word (R120). -/
def bigEndian (bytes : List Byte) : Block := bytes.foldl (fun acc b => (acc <<< 8) ||| b.setWidth 64) 0#64

/-- The ciphertext bytes of a message: the outputs when encoding, the inputs when decoding (R120). -/
def ciphertextOf (blk : Block → Block) (c : Channel) (chain : Block) (m : List Byte) : List Byte :=
  match c with
  | .enc => runBytes blk c chain m
  | .dec => m

end Sys2Proof.Safety
end

