-- ==== Sys2Proof/WellFormed.lean ====
section
/-! DEFINITION. When a 16-bit word is a legal command, said by formats (30_encoding.md R60, R61, R65). A term of `Instr`
needs no check of its own: each operand type holds the operand's range and nothing else (entry 14). What can be ill-formed
is a word, in two ways: its opcode has no row, or a bit that its format requires to be zero is set. -/

namespace Sys2Proof

/-- The three fields of a command word (R60). -/
structure CmdFields where
  op : BitVec 4
  idx : BitVec 4
  imm : BitVec 8
  deriving DecidableEq, Repr

/-- R60: `op` is bits 15:12, `idx` bits 11:8, `imm` bits 7:0. -/
def CmdFields.ofWord (w : CmdWord) : CmdFields where
  op := w.extractLsb' 12 4
  idx := w.extractLsb' 8 4
  imm := w.extractLsb' 0 8

/-- The seven formats of R61. -/
inductive Format where
  | z
  | kb
  | ib
  | v
  | c
  | cb
  | r
  deriving DecidableEq, Repr

/-- The format of each opcode (R61, R63); opcodes 0x8 to 0xE have none. -/
def Format.ofOp (op : BitVec 4) : Option Format :=
  if op = 0x0#4 ∨ op = 0xF#4 then some .z
  else if op = 0x1#4 then some .kb
  else if op = 0x2#4 then some .ib
  else if op = 0x3#4 then some .v
  else if op = 0x4#4 ∨ op = 0x6#4 then some .c
  else if op = 0x5#4 then some .cb
  else if op = 0x7#4 then some .r
  else none

/-- R61: the bits of `idx` that carry an operand; every other one must be zero. -/
def Format.idxBits : Format → BitVec 4
  | .z => 0b0000#4
  | .kb => 0b1111#4
  | .ib => 0b0111#4
  | .v => 0b0000#4
  | .c => 0b0001#4
  | .cb => 0b0001#4
  | .r => 0b0011#4

/-- R61: the bits of `imm` that carry an operand; every other one must be zero. -/
def Format.immBits : Format → BitVec 8
  | .z => 0x00#8
  | .kb => 0xFF#8
  | .ib => 0xFF#8
  | .v => 0x03#8
  | .c => 0x00#8
  | .cb => 0xFF#8
  | .r => 0x00#8

/-- Check 1: the opcode has a row. -/
def CmdFields.hasRow (f : CmdFields) : Bool := (Format.ofOp f.op).isSome

/-- Check 2: no bit of `idx` is set that the format requires to be zero (R65). -/
def CmdFields.idxOk (f : CmdFields) : Bool :=
  match Format.ofOp f.op with
  | some t => f.idx &&& ~~~t.idxBits == 0#4
  | none => false

/-- Check 3: no bit of `imm` is set that the format requires to be zero (R65). -/
def CmdFields.immOk (f : CmdFields) : Bool :=
  match Format.ofOp f.op with
  | some t => f.imm &&& ~~~t.immBits == 0#8
  | none => false

/-- A word is a legal command by its format. -/
def CmdFields.wellFormed (f : CmdFields) : Bool := f.hasRow && f.idxOk && f.immOk

end Sys2Proof
end

