-- ==== Sys2Proof/Certificates/Slice0/Obligations.lean ====
section
/-! DEFINITION. The statements for the provers. Each docstring says which rule of spec/ it formalises. -/

open Sys2Proof Sys2Proof.Machine Sys2Proof.Safety

/-! ## Encoding -/

/-- The eleven words of 30_encoding.md R69's table and the last word of each command in V7.1 of 95_test_vectors.md: each
decodes to the command the spec writes beside it. -/
def Obligations.SpecExampleWordsDecode : Prop :=
  decode 0x0000#16 = .command .nop ∧ decode 0x1AA5#16 = .command (.ldk 10 0xA5#8) ∧
  decode 0x1FFF#16 = .command (.ldk 15 0xFF#8) ∧ decode 0x27EF#16 = .command (.ldiv 7 0xEF#8) ∧
  decode 0x3002#16 = .command (.init .feistel) ∧ decode 0x3003#16 = .command (.init .reserved) ∧
  decode 0x4000#16 = .command (.start .enc) ∧ decode 0x4100#16 = .command (.start .dec) ∧
  decode 0x5032#16 = .command (.byte .enc 0x32#8) ∧ decode 0x513F#16 = .command (.byte .dec 0x3F#8) ∧
  decode 0x51FF#16 = .command (.byte .dec 0xFF#8) ∧ decode 0x6100#16 = .command (.endMsg .dec) ∧
  decode 0x7100#16 = .command (.rdst .errs) ∧ decode 0x7300#16 = .command (.rdst .dout1) ∧
  decode 0xF000#16 = .command .reset

/-- 30_encoding.md section 5, the derived half of R71: decoding an encoded command gives the command back, with every
operand at every value. -/
def Obligations.DecodeOfEncodeIsTheCommand : Prop := ∀ i : Instr, decode (encode i) = .command i

/-- 30_encoding.md section 5, the other derived half of R71: a legal word is the encoding of what it decodes to, so no
two legal words stand for one command. -/
def Obligations.EncodeOfDecodeIsTheWord : Prop := ∀ (w : CmdWord) (i : Instr), decode w = .command i → encode i = w

/-- 30_encoding.md section 2, the opcode map: the decoder selects by mask and match exactly as the table's rows do, and
at most one row selects a word. -/
def Obligations.DecoderAgreesWithOpcodeMap : Prop :=
  ∀ w : CmdWord,
    (∀ row ∈ opcodeMap, row.selects w = true ↔ ∃ i, decode w = .command i ∧ i.mnemonic = row.mnemonic) ∧
    (∀ row ∈ opcodeMap, ∀ row' ∈ opcodeMap, row.selects w = true → row'.selects w = true → row = row')

/-- 30_encoding.md sections 1 and 3 (formats, must-be-zero bits): a word is legal exactly when its opcode has a row and
no bit that its format requires to be zero is set. -/
def Obligations.LegalWordsFitTheirFormat : Prop :=
  ∀ w : CmdWord, (∃ i, decode w = .command i) ↔ (CmdFields.ofWord w).wellFormed = true

/-- R64: every word selects exactly one row or is illegal, which words are illegal, that each of them is refused with `E_ILLEGAL` and sets `ERRS` bit 0 and nothing else
whatever the phase, and R64's examples. -/
def Obligations.IllegalWordsAreRefused : Prop :=
  (∀ w : CmdWord, (∃ why, decode w = .illegal why) ∨
    ∃ row ∈ opcodeMap, row.selects w = true ∧ ∀ row' ∈ opcodeMap, row'.selects w = true → row' = row) ∧
  (∀ w : CmdWord, (∃ why, decode w = .illegal why) ↔
    (0x8 ≤ w.toNat / 0x1000 ∧ w.toNat / 0x1000 ≤ 0xE) ∨ (w.toNat / 0x1000 = 0xF ∧ w ≠ 0xF000#16) ∨
    (w.toNat / 0x1000 = 0x0 ∧ w ≠ 0x0000#16) ∨
    (0x2 ≤ w.toNat / 0x1000 ∧ w.toNat / 0x1000 ≤ 0x7 ∧
      ((CmdFields.ofWord w).idxOk = false ∨ (CmdFields.ofWord w).immOk = false))) ∧
  (∀ (s : State) (w : CmdWord) (rest : List CmdWord) (why : IllegalWord),
    s.pending = w :: rest → decode w = .illegal why →
    step s = .next ⟨{ s.core with errs := s.core.errs ||| 0x01#8 }, rest, s.responses ++ [0x1000#16]⟩) ∧
  (∀ w ∈ [0x2800#16, 0x0001#16, 0x4001#16, 0x7400#16, 0xF001#16, 0x3004#16, 0x5200#16, 0x8000#16],
    ∃ why, decode w = .illegal why)

/-! ## The step and reset -/

/-- A step runs the decoded command: the presented word is taken, and the step is `exec` of its command in the state
without that word (00_scope.md section 4, 20_memory.md section 4). -/
def Obligations.StepRunsTheDecodedCommand : Prop :=
  ∀ (s : State) (w : CmdWord) (rest : List CmdWord) (i : Instr),
    s.pending = w :: rest → decode w = .command i → step s = exec i { s with pending := rest }

/-- The host presents an encoded command and the very next step runs it, the words presented before staying as they
were. How a word comes to be presented is the model's choice: entries 1 and 3. -/
def Obligations.PresentedCommandRunsNext : Prop :=
  ∀ (s : State) (i : Instr), step (s.withFetchWord 16 (encode i).toNat) = exec i s

/-- With no word presented the core waits: the model's choice, entry 2 (60_exceptions.md R160 says that the core waits for
the next command). -/
def Obligations.CoreWaitsForACommand : Prop := ∀ s : State, s.pending = [] → step s = .next s

/-- 20_memory.md section 4: commands presented as their words, before whatever was presented already, are carried out one
after the other in the order presented, each in the state the one before it left. -/
def Obligations.PresentedCommandsRunInOrder : Prop :=
  ∀ (cmds : List Instr) (s : State),
    Sys2Proof.core.run cmds.length { s with pending := cmds.map encode ++ s.pending } = execAll cmds s

/-- R32: every field after power-on reset, what `RDST 0`, `RDST 1` and `INIT` then answer, and that the `RESET` command
leaves the same record. -/
def Obligations.ResetLeavesEveryFieldZero : Prop :=
  State.reset.core.phase = .unconf ∧ State.reset.core.var = .ref ∧ (∀ i : Fin 16, State.reset.core.key[i] = 0x00#8) ∧
  State.reset.core.kmask = 0x0000#16 ∧ (∀ i : Fin 8, State.reset.core.iv[i] = 0x00#8) ∧
  State.reset.core.ivmask = 0x00#8 ∧ (∀ i : Fin 32, State.reset.core.rk[i] = 0x00000000#32) ∧
  (∀ c, State.reset.core.chan c = ⟨false, 0x0000000000000000#64, 0x00#8⟩) ∧ State.reset.core.errs = 0x00#8 ∧
  (∀ r ∈ [StatusReg.status, StatusReg.errs],
    exec (.rdst r) State.reset = .next { State.reset with responses := State.reset.responses ++ [0x0000#16] }) ∧
  (∀ v ∈ [Variant.placeholder, Variant.feistel], ∃ t,
    exec (.init v) State.reset = .next t ∧ t.core.phase = .fault ∧ t.responses = State.reset.responses ++ [0x4000#16]) ∧
  (∀ s : State, ∃ t, exec .reset s = .next t ∧ t.core = State.reset.core)

/-! ## The commands: what each answers in every phase, with its whole frame -/

/-- R130. -/
def Obligations.NopDoesNothing : Prop :=
  (∀ s : State, s.core.phase = .fault →
    exec .nop s = .next ⟨{ s.core with errs := s.core.errs ||| 0x02#8 }, s.pending, s.responses ++ [0x2000#16]⟩) ∧
  (∀ s : State, s.core.phase ≠ .fault → exec .nop s = .next ⟨s.core, s.pending, s.responses ++ [0x0000#16]⟩) ∧
  (∀ w : CmdWord, decode w = .command .nop ↔ w = 0x0000#16)

/-- R131. -/
def Obligations.LdkLoadsOneKeyByte : Prop :=
  (∀ (i : Fin 16) (b : Byte), encode (.ldk i b) = 0x1000#16 ||| (BitVec.ofNat 16 i.val <<< 8) ||| b.setWidth 16) ∧
  (∀ (i : Fin 16) (b : Byte) (s : State), s.core.phase = .fault →
    exec (.ldk i b) s = .next ⟨{ s.core with errs := s.core.errs ||| 0x02#8 }, s.pending, s.responses ++ [0x2000#16]⟩) ∧
  (∀ (i : Fin 16) (b : Byte) (s : State), s.core.phase = .ready →
    exec (.ldk i b) s = .next ⟨{ s.core with errs := s.core.errs ||| 0x04#8 }, s.pending, s.responses ++ [0x3000#16]⟩) ∧
  (∀ (i : Fin 16) (b : Byte) (s : State), s.core.phase = .unconf → ∃ key kmask,
    exec (.ldk i b) s = .next ⟨{ s.core with key := key, kmask := kmask }, s.pending, s.responses ++ [0x0000#16]⟩ ∧
    (∀ j : Fin 16, key[j] = if j = i then b else s.core.key[j]) ∧
    (∀ j : Fin 16, kmask.getLsbD j = (decide (j = i) || s.core.kmask.getLsbD j))) ∧
  (∃ t, exec (.ldk 10 0xA5#8) State.reset = .next t ∧ t.core.key[10] = 0xA5#8 ∧ t.core.kmask = 0x0400#16)

/-- R132. -/
def Obligations.LdivLoadsOneIvByte : Prop :=
  (∀ (i : Fin 8) (b : Byte), encode (.ldiv i b) = 0x2000#16 ||| (BitVec.ofNat 16 i.val <<< 8) ||| b.setWidth 16) ∧
  (∀ w : CmdWord, 0x2800#16 ≤ w → w ≤ 0x2FFF#16 → ∃ why, decode w = .illegal why) ∧
  (∀ (i : Fin 8) (b : Byte) (s : State), s.core.phase = .fault →
    exec (.ldiv i b) s = .next ⟨{ s.core with errs := s.core.errs ||| 0x02#8 }, s.pending, s.responses ++ [0x2000#16]⟩) ∧
  (∀ (i : Fin 8) (b : Byte) (s : State), s.core.phase = .ready →
    exec (.ldiv i b) s = .next ⟨{ s.core with errs := s.core.errs ||| 0x04#8 }, s.pending, s.responses ++ [0x3000#16]⟩) ∧
  (∀ (i : Fin 8) (b : Byte) (s : State), s.core.phase = .unconf → ∃ iv ivmask,
    exec (.ldiv i b) s = .next ⟨{ s.core with iv := iv, ivmask := ivmask }, s.pending, s.responses ++ [0x0000#16]⟩ ∧
    (∀ j : Fin 8, iv[j] = if j = i then b else s.core.iv[j]) ∧
    (∀ j : Fin 8, ivmask.getLsbD j = (decide (j = i) || s.core.ivmask.getLsbD j))) ∧
  (∃ t, exec (.ldiv 7 0xEF#8) State.reset = .next t ∧ t.core.iv[7] = 0xEF#8 ∧ t.core.ivmask = 0x80#8)

/-- R133, for the machine `exec` runs. `KS` and `RC` are OPEN parameters, named here by `defaultParams` and by nothing
about their values; the statement for every choice of them is `InitHoldsForEveryParameterChoice`. -/
def Obligations.InitConstructsTheSession : Prop :=
  (∀ v : Variant, encode (.init v) = 0x3000#16 ||| v.toBits.setWidth 16) ∧
  (∀ (v : Variant) (s : State), s.core.phase = .fault →
    exec (.init v) s = .next ⟨{ s.core with errs := s.core.errs ||| 0x02#8 }, s.pending, s.responses ++ [0x2000#16]⟩) ∧
  (∀ (v : Variant) (s : State), s.core.phase = .ready →
    exec (.init v) s = .next ⟨{ s.core with errs := s.core.errs ||| 0x04#8 }, s.pending, s.responses ++ [0x3000#16]⟩) ∧
  (∀ (v : Variant) (s : State), s.core.phase = .unconf → v = .ref ∨ v = .reserved →
    exec (.init v) s = .next ⟨{ s.core with errs := s.core.errs ||| 0x10#8 }, s.pending, s.responses ++ [0x5000#16]⟩) ∧
  (∀ (v : Variant) (s : State), s.core.phase = .unconf → v = .placeholder ∨ v = .feistel →
    s.core.kmask ≠ 0xFFFF#16 ∨ s.core.ivmask ≠ 0xFF#8 →
    exec (.init v) s =
      .next ⟨{ s.core with errs := s.core.errs ||| 0x08#8, phase := .fault }, s.pending, s.responses ++ [0x4000#16]⟩) ∧
  (∀ s : State, s.core.phase = .unconf → s.core.kmask = 0xFFFF#16 → s.core.ivmask = 0xFF#8 →
    exec (.init .placeholder) s =
      .next ⟨{ s.core with var := .placeholder, phase := .ready }, s.pending, s.responses ++ [0x0000#16]⟩) ∧
  (∀ s : State, s.core.phase = .unconf → s.core.kmask = 0xFFFF#16 → s.core.ivmask = 0xFF#8 →
    exec (.init .feistel) s =
      .next ⟨{ s.core with var := .feistel, rk := defaultParams.ks defaultParams.rc s.core.key, phase := .ready },
        s.pending, s.responses ++ [0x0000#16]⟩) ∧
  (∃ t, execAll [.ldk 0 0xAA#8, .ldiv 0 0x55#8, .init .feistel, .rdst .status] State.reset = .next t ∧
    t.core.phase = .fault ∧ t.core.errs = 0x08#8 ∧ t.responses = [0x0000#16, 0x0000#16, 0x4000#16, 0x0002#16])

/-- R134, with the register numbers of R28. -/
def Obligations.RdstReadsWithoutSideEffect : Prop :=
  (∀ s : State, exec (.rdst .status) s =
    .next { s with responses := s.responses ++ [s.core.statusView.setWidth 16] }) ∧
  (∀ s : State, exec (.rdst .errs) s = .next { s with responses := s.responses ++ [s.core.errs.setWidth 16] }) ∧
  (∀ s : State, exec (.rdst .dout0) s = .next { s with responses := s.responses ++ [s.core.chan0.dout.setWidth 16] }) ∧
  (∀ s : State, exec (.rdst .dout1) s = .next { s with responses := s.responses ++ [s.core.chan1.dout.setWidth 16] }) ∧
  (∀ s : State, Inv defaultParams s.core → s.core.phase ≠ .ready → s.core.chan0.dout = 0#8 ∧ s.core.chan1.dout = 0#8) ∧
  encode (.rdst .status) = 0x7000#16 ∧ encode (.rdst .errs) = 0x7100#16 ∧ encode (.rdst .dout0) = 0x7200#16 ∧
  encode (.rdst .dout1) = 0x7300#16

/-- R135: `RESET` in any state answers OK and leaves the core as power-on reset leaves it. -/
def Obligations.ResetDestroysTheSession : Prop :=
  (∀ s : State, exec .reset s = .next ⟨State.reset.core, s.pending, s.responses ++ [0x0000#16]⟩) ∧
  (∀ s : State, ∀ r ∈ [StatusReg.status, StatusReg.errs],
    execAll [.reset, .rdst r] s = .next ⟨State.reset.core, s.pending, s.responses ++ [0x0000#16, 0x0000#16]⟩) ∧
  (∀ w : CmdWord, decode w = .command .reset ↔ w = 0xF000#16)

/-- R110: `START c` loads `IVWORD` and opens the message; a second `START` is refused and does not restart it. -/
def Obligations.StartOpensAMessageAtTheIv : Prop :=
  (∀ c : Channel, encode (.start c) = 0x4000#16 ||| (c.toBits.setWidth 16 <<< 8)) ∧
  (∀ (c : Channel) (s : State), s.core.phase = .fault →
    exec (.start c) s = .next ⟨{ s.core with errs := s.core.errs ||| 0x02#8 }, s.pending, s.responses ++ [0x2000#16]⟩) ∧
  (∀ (c : Channel) (s : State), s.core.phase = .unconf →
    exec (.start c) s = .next ⟨{ s.core with errs := s.core.errs ||| 0x04#8 }, s.pending, s.responses ++ [0x3000#16]⟩) ∧
  (∀ (c : Channel) (s : State), s.core.phase = .ready → (s.core.chan c).active = true →
    exec (.start c) s = .next ⟨{ s.core with errs := s.core.errs ||| 0x20#8 }, s.pending, s.responses ++ [0x6000#16]⟩) ∧
  (∀ s : State, s.core.phase = .ready → s.core.chan0.active = false →
    exec (.start .enc) s = .next ⟨{ s.core with chan0 := ⟨true, ivWord s.core.iv, s.core.chan0.dout⟩ }, s.pending,
      s.responses ++ [0x0000#16]⟩) ∧
  (∀ s : State, s.core.phase = .ready → s.core.chan1.active = false →
    exec (.start .dec) s = .next ⟨{ s.core with chan1 := ⟨true, ivWord s.core.iv, s.core.chan1.dout⟩ }, s.pending,
      s.responses ++ [0x0000#16]⟩)

/-- R111 and R113: when `BYTE c, b` is refused; and that in an open message it puts out `b` XOR the top byte of the block of
the chaining word, and shifts the ciphertext byte (the OUTPUT on channel 0, the INPUT on channel 1) into the chaining word,
for each variant. -/
def Obligations.ByteProcessesOneByte : Prop :=
  (∀ (c : Channel) (b : Byte), encode (.byte c b) = 0x5000#16 ||| (c.toBits.setWidth 16 <<< 8) ||| b.setWidth 16) ∧
  (∀ (c : Channel) (b : Byte) (s : State), s.core.phase = .fault →
    exec (.byte c b) s = .next ⟨{ s.core with errs := s.core.errs ||| 0x02#8 }, s.pending, s.responses ++ [0x2000#16]⟩) ∧
  (∀ (c : Channel) (b : Byte) (s : State), s.core.phase = .unconf →
    exec (.byte c b) s = .next ⟨{ s.core with errs := s.core.errs ||| 0x04#8 }, s.pending, s.responses ++ [0x3000#16]⟩) ∧
  (∀ (c : Channel) (b : Byte) (s : State), s.core.phase = .ready → (s.core.chan c).active = false →
    exec (.byte c b) s = .next ⟨{ s.core with errs := s.core.errs ||| 0x40#8 }, s.pending, s.responses ++ [0x7000#16]⟩) ∧
  (∀ (b o : Byte) (s : State) (blk : Block → Block), s.core.phase = .ready → s.core.chan0.active = true →
    (s.core.var = .feistel ∧ blk = fun x => feistelBlock x s.core.rk) ∨
      (s.core.var = .placeholder ∧ blk = fun x => placeholderBlock x (k64 s.core.key)) →
    o = b ^^^ (blk s.core.chan0.chain).extractLsb' 56 8 →
    exec (.byte .enc b) s =
      .next ⟨{ s.core with chan0 := ⟨true, (s.core.chan0.chain <<< 8) ||| o.setWidth 64, o⟩ }, s.pending,
        s.responses ++ [o.setWidth 16]⟩) ∧
  (∀ (b o : Byte) (s : State) (blk : Block → Block), s.core.phase = .ready → s.core.chan1.active = true →
    (s.core.var = .feistel ∧ blk = fun x => feistelBlock x s.core.rk) ∨
      (s.core.var = .placeholder ∧ blk = fun x => placeholderBlock x (k64 s.core.key)) →
    o = b ^^^ (blk s.core.chan1.chain).extractLsb' 56 8 →
    exec (.byte .dec b) s =
      .next ⟨{ s.core with chan1 := ⟨true, (s.core.chan1.chain <<< 8) ||| b.setWidth 64, o⟩ }, s.pending,
        s.responses ++ [o.setWidth 16]⟩)

/-- When `BYTE` stops the model: in phase `READY`, in an open message, with a `VAR` for which R99 says no case exists. The
stop is the model's choice, entry 7; the second clause says that no state meeting the invariant is such a state. -/
def Obligations.ByteStopsOnlyWithoutABlockFunction : Prop :=
  (∀ (c : Channel) (b : Byte) (s : State), s.core.phase = .ready → (s.core.chan c).active = true →
    (exec (.byte c b) s = .fault .noBlockFunction ↔ s.core.var = .ref ∨ s.core.var = .reserved)) ∧
  (∀ (p : Params) (c : CoreState), Inv p c → c.phase = .ready → ¬ (c.var = .ref ∨ c.var = .reserved))

/-- R112: `END c` closes the message and clears the chaining word; `DOUT[c]` stays. -/
def Obligations.EndClosesTheMessage : Prop :=
  (∀ c : Channel, encode (.endMsg c) = 0x6000#16 ||| (c.toBits.setWidth 16 <<< 8)) ∧
  (∀ (c : Channel) (s : State), s.core.phase = .fault →
    exec (.endMsg c) s = .next ⟨{ s.core with errs := s.core.errs ||| 0x02#8 }, s.pending, s.responses ++ [0x2000#16]⟩) ∧
  (∀ (c : Channel) (s : State), s.core.phase = .unconf →
    exec (.endMsg c) s = .next ⟨{ s.core with errs := s.core.errs ||| 0x04#8 }, s.pending, s.responses ++ [0x3000#16]⟩) ∧
  (∀ (c : Channel) (s : State), s.core.phase = .ready → (s.core.chan c).active = false →
    exec (.endMsg c) s = .next ⟨{ s.core with errs := s.core.errs ||| 0x40#8 }, s.pending, s.responses ++ [0x7000#16]⟩) ∧
  (∀ s : State, s.core.phase = .ready → s.core.chan0.active = true →
    exec (.endMsg .enc) s = .next ⟨{ s.core with chan0 := ⟨false, 0x0000000000000000#64, s.core.chan0.dout⟩ }, s.pending,
      s.responses ++ [0x0000#16]⟩) ∧
  (∀ s : State, s.core.phase = .ready → s.core.chan1.active = true →
    exec (.endMsg .dec) s = .next ⟨{ s.core with chan1 := ⟨false, 0x0000000000000000#64, s.core.chan1.dout⟩ }, s.pending,
      s.responses ++ [0x0000#16]⟩)

/-! ## Refusals, responses, flags -/

/-- R150: a command answers OK and leaves `ERRS` alone (`RESET` clears it), or it is refused with one code, and then the
state is the state before plus that code's `ERRS` bit, and `PHASE` for `E_LEN`. (R150's last sentence is advice on how a
model may name this; entry 4.) -/
def Obligations.RefusalsArePrecise : Prop :=
  ∀ (i : Instr) (s t : State), exec i s = .next t → ∃ r : RespWord,
    t.responses = s.responses ++ [r] ∧ t.pending = s.pending ∧
    ((respStatus r = 0#4 ∧ (i ≠ .reset → t.core.errs = s.core.errs)) ∨
      ∃ code, 1 ≤ code ∧ code ≤ 7 ∧ r = BitVec.ofNat 16 (code * 0x1000) ∧
        t.core = { s.core with errs := s.core.errs ||| (1#8 <<< (code - 1)),
                               phase := if code = 4 then .fault else s.core.phase })

/-- R152 to R158: the cause of each refusal, as "if and only if", and the state change of each: the `ERRS` bit, and `PHASE`
for `E_LEN`. That every one of them is a next state and not a stop is entry 4. -/
def Obligations.EachRefusalHasItsCause : Prop :=
  ∀ (s t : State) (w : CmdWord) (rest : List CmdWord), s.pending = w :: rest → step s = .next t → ∃ r : RespWord,
    t.responses = s.responses ++ [r] ∧
    (respStatus r = 1#4 ↔ ∃ why, decode w = .illegal why) ∧
    (respStatus r = 2#4 ↔
      s.core.phase = .fault ∧ ∃ i, decode w = .command i ∧ i ≠ .reset ∧ ∀ x, i ≠ .rdst x) ∧
    (respStatus r = 3#4 ↔
      (s.core.phase = .ready ∧ ((∃ k b, decode w = .command (.ldk k b)) ∨ (∃ k b, decode w = .command (.ldiv k b)) ∨
        ∃ v, decode w = .command (.init v))) ∨
      (s.core.phase = .unconf ∧ ((∃ c, decode w = .command (.start c)) ∨ (∃ c b, decode w = .command (.byte c b)) ∨
        ∃ c, decode w = .command (.endMsg c)))) ∧
    (respStatus r = 4#4 ↔
      s.core.phase = .unconf ∧ (decode w = .command (.init .placeholder) ∨ decode w = .command (.init .feistel)) ∧
        (s.core.kmask ≠ 0xFFFF#16 ∨ s.core.ivmask ≠ 0xFF#8)) ∧
    (respStatus r = 5#4 ↔
      s.core.phase = .unconf ∧ (decode w = .command (.init .ref) ∨ decode w = .command (.init .reserved))) ∧
    (respStatus r = 6#4 ↔
      s.core.phase = .ready ∧ ∃ c, decode w = .command (.start c) ∧ (s.core.chan c).active = true) ∧
    (respStatus r = 7#4 ↔
      s.core.phase = .ready ∧ ∃ c, ((∃ b, decode w = .command (.byte c b)) ∨ decode w = .command (.endMsg c)) ∧
        (s.core.chan c).active = false) ∧
    (∀ code : Fin 8, code ≠ 0 → respStatus r = BitVec.ofNat 4 code →
      respData r = 0#8 ∧ t.core = { s.core with errs := s.core.errs ||| (1#8 <<< (code.val - 1)),
                                                phase := if code = 4 then .fault else s.core.phase })

/-- R159: the status code of every response is the code of the first failing check in the order of R159 (decode first),
and 0 when none fails. -/
def Obligations.FirstFailingCheckDecidesTheStatus : Prop :=
  ∀ (s t : State) (w : CmdWord) (rest : List CmdWord), s.pending = w :: rest → step s = .next t → ∃ r : RespWord,
    t.responses = s.responses ++ [r] ∧ (respStatus r).toNat = statusCode w s.core

/-- R67: every command gives exactly one response; its status is 0 to 7, its bits 11:8 are zero, its data is zero in a
refusal and in every command but `BYTE` (the output byte, which is also `DOUT[c]`) and `RDST` (the register); and it is a function of the core and the word, nothing else. -/
def Obligations.OneResponseOfTheRightShape : Prop :=
  (∀ (s t : State) (w : CmdWord) (rest : List CmdWord), s.pending = w :: rest → step s = .next t → ∃ r : RespWord,
    t.pending = rest ∧ t.responses = s.responses ++ [r] ∧ (respStatus r).toNat ≤ 7 ∧ r.extractLsb' 8 4 = 0#4 ∧
    (respStatus r ≠ 0#4 → respData r = 0#8) ∧
    ((∀ c b, decode w ≠ .command (.byte c b)) → (∀ x, decode w ≠ .command (.rdst x)) → respData r = 0#8) ∧
    (∀ c b, decode w = .command (.byte c b) → respStatus r = 0#4 → respData r = (t.core.chan c).dout) ∧
    (∀ x, decode w = .command (.rdst x) → respData r = s.core.statusReg x)) ∧
  (∀ (s s' t t' : State) (w : CmdWord) (rest rest' : List CmdWord), s.core = s'.core → s.pending = w :: rest →
    s'.pending = w :: rest' → step s = .next t → step s' = .next t' → ∃ r : RespWord,
      t.responses = s.responses ++ [r] ∧ t'.responses = s'.responses ++ [r] ∧ t.core = t'.core)

/-- R27: between resets `ERRS` only grows, one bit for each refusal; a command that answers OK does not touch it; bit 7
stays zero; `RDST 1` returns it; and no command reads it to decide anything. -/
def Obligations.ErrsIsSticky : Prop :=
  (∀ (s t : State) (w : CmdWord) (rest : List CmdWord), s.pending = w :: rest → ¬ isReset w → step s = .next t →
    (∀ k, s.core.errs.getLsbD k = true → t.core.errs.getLsbD k = true) ∧
    (statusCode w s.core = 0 → t.core.errs = s.core.errs) ∧
    (statusCode w s.core ≠ 0 → t.core.errs = s.core.errs ||| (1#8 <<< (statusCode w s.core - 1))) ∧
    (s.core.errs.getLsbD 7 = false → t.core.errs.getLsbD 7 = false)) ∧
  (∀ s : State, exec (.rdst .errs) s = .next { s with responses := s.responses ++ [s.core.errs.setWidth 16] }) ∧
  (∀ (i : Instr) (s t t' : State) (e : BitVec 8), exec i s = .next t →
    exec i { s with core := { s.core with errs := e } } = .next t' →
    { t.core with errs := 0#8 } = { t'.core with errs := 0#8 } ∧ (i ≠ .rdst .errs → t.responses = t'.responses))

/-- R28: the bits of the `STATUS` view, the numbers of the status registers, and that reading one gives its value and
leaves the core unchanged. -/
def Obligations.StatusViewBits : Prop :=
  (∀ c : CoreState,
    c.statusView.extractLsb' 0 2 = (match c.phase with | .unconf => 0#2 | .ready => 1#2 | .fault => 2#2) ∧
    c.statusView.extractLsb' 2 2 = c.var.toBits ∧ c.statusView.getLsbD 4 = c.chan0.active ∧
    c.statusView.getLsbD 5 = c.chan1.active ∧ c.statusView.getLsbD 6 = decide (c.kmask = 0xFFFF#16) ∧
    c.statusView.getLsbD 7 = decide (c.ivmask = 0xFF#8)) ∧
  decode 0x7000#16 = .command (.rdst .status) ∧ decode 0x7100#16 = .command (.rdst .errs) ∧
  decode 0x7200#16 = .command (.rdst .dout0) ∧ decode 0x7300#16 = .command (.rdst .dout1) ∧
  (∀ (r : StatusReg) (s : State), exec (.rdst r) s =
    .next { s with responses := s.responses ++ [(match r with
      | .status => s.core.statusView
      | .errs => s.core.errs
      | .dout0 => s.core.chan0.dout
      | .dout1 => s.core.chan1.dout).setWidth 16] })

/-! ## Invariants and whole-machine rules -/

/-- 10_state.md section 4: the invariants hold at reset, for any choice of the OPEN parameters. -/
def Obligations.ResetMeetsTheInvariant : Prop := ∀ p : Params, Inv p State.reset.core

/-- 10_state.md section 4: every step keeps the invariants, from every state that meets them. -/
def Obligations.EveryStepKeepsTheInvariant : Prop :=
  ∀ s t : State, Inv defaultParams s.core → step s = .next t → Inv defaultParams t.core

/-- 10_state.md section 4 for the OPEN parameters `RC` and `KS` (92_eei_decisions.md D12, D13): whatever they are, every
command keeps the invariants, item 3 among them. At the defaults it is the machine's own `exec`. -/
def Obligations.InvariantHoldsForEveryParameterChoice : Prop :=
  (∀ (p : Params) (i : Instr) (s t : State), Inv p s.core → execWith p i s = .next t → Inv p t.core) ∧
  (∀ (i : Instr) (s : State), execWith defaultParams i s = exec i s)

/-- 42_session_control.md R133 for the OPEN parameters: whatever `RC` and `KS` are, `INIT 2` of a complete key and IV
stores `KS(KEY)`. -/
def Obligations.InitHoldsForEveryParameterChoice : Prop :=
  ∀ (p : Params) (s : State), s.core.phase = .unconf → s.core.kmask = 0xFFFF#16 → s.core.ivmask = 0xFF#8 →
    initWith p .feistel s = .next ⟨{ s.core with var := .feistel, rk := p.ks p.rc s.core.key, phase := .ready },
      s.pending, s.responses ++ [0x0000#16]⟩

/-- 30_encoding.md R64, 00_scope.md R6, 93_implementation_defined.md ("Nothing in the model is stuck"): from a state that
meets the invariants no run ever stops, whatever words the host presents. -/
def Obligations.NoRunStops : Prop := ∀ s : State, Inv defaultParams s.core → NeverStops s

/-- 10_state.md section 4, as the spec words it: the invariants hold in every state reachable from reset by any command
sequence. -/
def Obligations.ReachableStatesMeetTheInvariant : Prop := ∀ s : State, Reachable s → Inv defaultParams s.core

/-- 42_session_control.md R137 and 10_state.md R33 item 8 (derived): from a `READY` state on, key, IV, variant, round keys
and phase stay the same, whatever words are presented, until one of them is `RESET`. -/
def Obligations.SessionIsImmutable : Prop :=
  ∀ (n : Nat) (s t : State), s.core.phase = .ready → (∀ w ∈ s.pending, ¬ isReset w) →
    Sys2Proof.core.run n s = .next t → sessionOf t.core = sessionOf s.core

/-- 42_session_control.md section "The lifecycle state machine": the only moves of `PHASE`. In particular none leads from
`READY` to `UNCONF` and none out of `FAULT` but reset. -/
def Obligations.OnlyInitAndResetMoveThePhase : Prop :=
  ∀ (s t : State) (w : CmdWord) (rest : List CmdWord), s.pending = w :: rest → step s = .next t →
    t.core.phase ≠ s.core.phase →
    (decode w = .command .reset ∧ t.core.phase = .unconf) ∨
    (∃ v, decode w = .command (.init v) ∧ (v = .placeholder ∨ v = .feistel) ∧ s.core.phase = .unconf ∧
      ((s.core.kmask = 0xFFFF#16 ∧ s.core.ivmask = 0xFF#8 ∧ t.core.phase = .ready) ∨
       ((s.core.kmask ≠ 0xFFFF#16 ∨ s.core.ivmask ≠ 0xFF#8) ∧ t.core.phase = .fault)))

/-- 10_state.md section 1 ("Written by …" of R21 to R27): under every command but `RESET`, each field changes only by the
commands that own it, in the phase that allows them (20_memory.md R40), and `ERRS` only by a refusal. -/
def Obligations.OnlyOwnersWriteAField : Prop :=
  ∀ (i : Instr) (s t : State), exec i s = .next t → i ≠ .reset →
    ((t.core.key ≠ s.core.key ∨ t.core.kmask ≠ s.core.kmask) → s.core.phase = .unconf ∧ ∃ k b, i = .ldk k b) ∧
    ((t.core.iv ≠ s.core.iv ∨ t.core.ivmask ≠ s.core.ivmask) → s.core.phase = .unconf ∧ ∃ k b, i = .ldiv k b) ∧
    ((t.core.var ≠ s.core.var ∨ t.core.phase ≠ s.core.phase) → s.core.phase = .unconf ∧ ∃ v, i = .init v) ∧
    (t.core.rk ≠ s.core.rk → s.core.phase = .unconf ∧ i = .init .feistel) ∧
    (∀ c, ((t.core.chan c).active ≠ (s.core.chan c).active →
        s.core.phase = .ready ∧ (i = .start c ∨ i = .endMsg c)) ∧
      ((t.core.chan c).chain ≠ (s.core.chan c).chain →
        s.core.phase = .ready ∧ (i = .start c ∨ i = .endMsg c ∨ ∃ b, i = .byte c b)) ∧
      ((t.core.chan c).dout ≠ (s.core.chan c).dout → s.core.phase = .ready ∧ ∃ b, i = .byte c b)) ∧
    (t.core.errs ≠ s.core.errs → ∃ r : RespWord, t.responses = s.responses ++ [r] ∧ respStatus r ≠ 0#4)

/-- R30: no command returns a secret. From two states whose `RDST` views are equal, every command gets the same status,
and every command but `BYTE` the same response, data byte included, whatever the key, the IV, the masks, the round keys
and the chaining words are. If the masks agree too, the states after agree again on the views (on `DOUT` unless the command
is `BYTE`, whose data byte R30 names) and on the masks, so the same holds of the next command. -/
def Obligations.SecretsAreNotReadable : Prop :=
  ∀ (i : Instr) (s s' t t' : State), readable s.core = readable s'.core → exec i s = .next t → exec i s' = .next t' →
    ∃ r r' : RespWord, t.responses = s.responses ++ [r] ∧ t'.responses = s'.responses ++ [r'] ∧
      respStatus r = respStatus r' ∧ ((∀ c b, i ≠ .byte c b) → r = r') ∧
      (s.core.kmask = s'.core.kmask → s.core.ivmask = s'.core.ivmask →
        t.core.kmask = t'.core.kmask ∧ t.core.ivmask = t'.core.ivmask ∧ t.core.statusView = t'.core.statusView ∧
        t.core.errs = t'.core.errs ∧ ((∀ c b, i ≠ .byte c b) → readable t.core = readable t'.core))

/-- 20_memory.md R48 (derived): repeating `RDST` returns the same byte and changes nothing; repeating a load with the same
operands in `UNCONF` leaves the core as one load does. -/
def Obligations.ReadsAndLoadsRepeat : Prop :=
  (∀ (r : StatusReg) (s : State), ∃ a : RespWord,
    execAll [.rdst r, .rdst r] s = .next { s with responses := s.responses ++ [a, a] }) ∧
  (∀ (i : Instr) (s t u : State), ((∃ k b, i = .ldk k b) ∨ ∃ k b, i = .ldiv k b) → s.core.phase = .unconf →
    exec i s = .next t → execAll [i, i] s = .next u → u.core = t.core)

/-! ## Channels -/

/-- 20_memory.md R50 (derived): a message command reads only the session and its own channel's context, and writes only
that context and `ERRS`. -/
def Obligations.MessageCommandsKeepToTheirChannel : Prop :=
  ∀ (i : Instr) (c d : Channel) (s s' t t' : State), channelOfCommand i = some c → d ≠ c →
    sessionOf s.core = sessionOf s'.core → s.core.chan c = s'.core.chan c →
    exec i s = .next t → exec i s' = .next t' →
    t.core.chan d = s.core.chan d ∧ sessionOf t.core = sessionOf s.core ∧ t.core.kmask = s.core.kmask ∧
    t.core.ivmask = s.core.ivmask ∧ t.core.chan c = t'.core.chan c ∧
    t.responses.drop s.responses.length = t'.responses.drop s'.responses.length

/-- 20_memory.md R50 (derived), for whole streams: in a `READY` state, however the commands of the two channels are
interleaved, channel `c` gets the responses and ends in the context it would have had if its stream had run alone. -/
def Obligations.ChannelsDoNotInterfere : Prop :=
  ∀ (cmds : List Instr) (c : Channel) (s : State), Inv defaultParams s.core → s.core.phase = .ready →
    (∀ i ∈ cmds, isStreamCommand i = true) →
    ∃ t u, execAll cmds s = .next t ∧ execAll (streamOf c cmds) s = .next u ∧ t.core.chan c = u.core.chan c ∧
      channelResponses c cmds s = channelResponses c (streamOf c cmds) s

/-! ## Whole messages -/

/-- 41_chainer.md R114 (derived): the commands of `ENCODE` and `DECODE` on an idle channel of a `READY` core all answer OK,
put out `RUN(c, m)` and leave the core as it was but for `DOUT[c]`. So nothing carries over to the next message (R116). -/
def Obligations.MessageCommandsComputeRun : Prop :=
  ∀ (c : Channel) (m : List Byte) (s : State) (blk : Block → Block), Inv defaultParams s.core → s.core.phase = .ready →
    (s.core.chan c).active = false → s.core.blockFn = some blk →
    ∃ out, out = runBytes blk c (ivWord s.core.iv) m ∧
      execAll (messageCommands c m) s =
        .next ⟨s.core.setChan c { s.core.chan c with dout := out.getLast?.getD (s.core.chan c).dout }, s.pending,
          s.responses ++ ([0x0000#16] ++ out.map (fun o => o.setWidth 16) ++ [0x0000#16])⟩

/-- 41_chainer.md R115 (derived) and 20_memory.md R53: between two cores with the same key, IV, variant and round keys,
decoding what the other encoded gives the message back, and the other way round. It holds for any block function, so for
any `RC` and `KS` and both variants. -/
def Obligations.DecodeInvertsEncode : Prop :=
  ∀ (c d : Channel) (m : List Byte) (s s' : State) (blk blk' : Block → Block), c ≠ d →
    sessionOf s.core = sessionOf s'.core → s.core.blockFn = some blk → s'.core.blockFn = some blk' →
    runBytes blk' d (ivWord s'.core.iv) (runBytes blk c (ivWord s.core.iv) m) = m

/-- 41_chainer.md R120 (derived): after the ciphertext bytes `ct` of a message the chaining word is the last eight bytes of
`IV ++ ct`, first byte most significant; and that word is what `CHAIN[c]` holds in the machine after `START c` and the
message's `BYTE` commands, from a `READY` state with the channel idle. -/
def Obligations.ChainIsASlidingWindow : Prop :=
  (∀ (blk : Block → Block) (c : Channel) (iv : IvBytes) (m : List Byte),
    chainAfter blk c (ivWord iv) m =
      bigEndian ((iv.toList ++ ciphertextOf blk c (ivWord iv) m).drop m.length)) ∧
  (∀ (c : Channel) (m : List Byte) (s : State) (blk : Block → Block), s.core.phase = .ready →
    (s.core.chan c).active = false → s.core.blockFn = some blk →
    ∃ t, execAll (.start c :: m.map (.byte c)) s = .next t ∧ (t.core.chan c).active = true ∧
      (t.core.chan c).chain = chainAfter blk c (ivWord s.core.iv) m)

/-- 41_chainer.md R117 (derived): two messages that agree on their first `p` bytes have ciphertexts that agree on them,
and keystream bytes that agree at positions 0 to `p`, `p` included. -/
def Obligations.EqualPrefixesLeakEqualKeystream : Prop :=
  ∀ (blk : Block → Block) (chain : Block) (m m' : List Byte) (p : Nat), m.take p = m'.take p →
    (runBytes blk .enc chain m).take p = (runBytes blk .enc chain m').take p ∧
    (∀ j b b' o o', j ≤ p → m[j]? = some b → m'[j]? = some b' → (runBytes blk .enc chain m)[j]? = some o →
      (runBytes blk .enc chain m')[j]? = some o' → b ^^^ o = b' ^^^ o')

/-- 41_chainer.md R121 (derived): a ciphertext byte altered at position `p` alters the recovered byte there by the same
difference, and from position `p + 9` on the recovered bytes are right again; before `p` nothing changes. -/
def Obligations.DamageEndsAfterNineBytes : Prop :=
  ∀ (blk : Block → Block) (chain : Block) (m : List Byte) (p : Nat) (old new : Byte), m[p]? = some old →
    (∀ j, j < p ∨ p + 9 ≤ j → (runBytes blk .dec chain (m.set p new))[j]? = (runBytes blk .dec chain m)[j]?) ∧
    (runBytes blk .dec chain (m.set p new))[p]? = (runBytes blk .dec chain m)[p]?.map (· ^^^ (old ^^^ new))

/-- 41_chainer.md R119: the output has one byte for each input byte, and the empty message, `START` then `END`, answers
OK twice and leaves a `READY` core as it was, with `CHAIN[c]` zero. -/
def Obligations.MessagesKeepTheirLength : Prop :=
  (∀ (blk : Block → Block) (c : Channel) (chain : Block) (m : List Byte), (runBytes blk c chain m).length = m.length) ∧
  (∀ (c : Channel) (s : State), s.core.phase = .ready → (s.core.chan c).active = false →
    execAll [.start c, .endMsg c] s = .next ⟨s.core.setChan c ⟨false, 0#64, (s.core.chan c).dout⟩, s.pending,
      s.responses ++ [0x0000#16, 0x0000#16]⟩)

/-- 70_reset_and_hazards.md section 2 and R70's `SETUP`: from any state, `RESET`, the 24 loads and `INIT` of an implemented
variant all answer OK and leave a `READY` core with that key, IV and variant, whose `STATUS` is 0xC5 or 0xC9. -/
def Obligations.SetupBuildsAReadySession : Prop :=
  ∀ (v : Variant) (k : Key) (iv : IvBytes) (s : State), v = .placeholder ∨ v = .feistel → ∃ t,
    execAll (Pseudo.expand (.setup v k iv)) s = .next t ∧ t.core.phase = .ready ∧ t.core.var = v ∧ t.core.key = k ∧
    t.core.iv = iv ∧ t.core.kmask = 0xFFFF#16 ∧ t.core.ivmask = 0xFF#8 ∧ t.core.errs = 0#8 ∧
    t.core.statusView = (if v = .placeholder then 0xC5#8 else 0xC9#8) ∧
    t.responses = s.responses ++ List.replicate 26 0x0000#16

/-! ## The cipher's functions -/

/-- R91 and R92: where rotation moves each bit, each bit of `G`, and the rules' examples. -/
def Obligations.RotationAndGBits : Prop :=
  (∀ (a : Half) (k : Nat), k < 32 → (rotl32 a 1).getLsbD ((k + 1) % 32) = a.getLsbD k ∧
    (rotl32 a 5).getLsbD ((k + 5) % 32) = a.getLsbD k) ∧
  (∀ (a : Half) (k : Nat), k < 32 →
    (g a).getLsbD k = (a.getLsbD k ^^ (a.getLsbD ((k + 27) % 32) && a.getLsbD ((k + 31) % 32)))) ∧
  rotl32 0x80000000#32 1 = 0x00000001#32 ∧ rotl32 0x80000000#32 5 = 0x00000010#32 ∧
  rotl32 0x12345678#32 5 = 0x468ACF02#32 ∧ rotl32 0x12345678#32 1 = 0x2468ACF0#32 ∧
  g 0x00000000#32 = 0x00000000#32 ∧ g 0xFFFFFFFF#32 = 0x00000000#32 ∧ g 0x00000001#32 = 0x00000001#32 ∧
  g 0x00000011#32 = 0x00000031#32 ∧ g 0x80000000#32 = 0x80000000#32 ∧ g 0x12345678#32 = 0x163CDA78#32

/-- R41, R42, R43: the three byte orders as sums, with the rules' examples; `K64` does not read `KEY[8..15]`. -/
def Obligations.WordsAreBigEndian : Prop :=
  (∀ iv : IvBytes, (ivWord iv).toNat = ∑ i : Fin 8, iv[i].toNat * 2 ^ (8 * (7 - i.val))) ∧
  (∀ (key : Key) (j : Fin 4), (keyWord key j).toNat =
    ∑ i : Fin 4, (key[4 * j.val + i.val]'(by omega)).toNat * 2 ^ (8 * (3 - i.val))) ∧
  (∀ key : Key, (k64 key).toNat = ∑ i : Fin 8, (key[i.val]'(by omega)).toNat * 2 ^ (8 * (7 - i.val))) ∧
  ivWord ⟨#[0x01#8, 0x23#8, 0x45#8, 0x67#8, 0x89#8, 0xAB#8, 0xCD#8, 0xEF#8], rfl⟩ = 0x0123456789ABCDEF#64 ∧
  (∀ key : Key, (∀ i : Fin 16, key[i] = BitVec.ofNat 8 i.val) →
    keyWord key 0 = 0x00010203#32 ∧ keyWord key 1 = 0x04050607#32 ∧ keyWord key 2 = 0x08090A0B#32 ∧
    keyWord key 3 = 0x0C0D0E0F#32 ∧ k64 key = 0x0001020304050607#64)

/-- 40_block_primitive.md R95 (derived), the lane law: the upper half of a block depends on the upper half of the input
and the even round keys only, the lower half on the lower half and the odd ones. -/
def Obligations.FeistelHalvesNeverMix : Prop :=
  ∀ (x : Block) (rk : RoundKeys),
    (feistelBlock x rk).extractLsb' 32 32 =
      lane (x.extractLsb' 32 32) (List.ofFn fun t : Fin 16 => rk[2 * t.val]'(by omega)) ∧
    (feistelBlock x rk).extractLsb' 0 32 =
      lane (x.extractLsb' 0 32) (List.ofFn fun t : Fin 16 => rk[2 * t.val + 1]'(by omega))

/-- 40_block_primitive.md R101 (derived): under no round keys is the Feistel block function a permutation. -/
def Obligations.FeistelIsNotAPermutation : Prop :=
  ∀ rk : RoundKeys, ¬ Function.Injective fun x => feistelBlock x rk

/-- 40_block_primitive.md R96's closed form (derived): 32 rounds shift the input left by 32 bits and XOR a constant that
depends on the key alone. -/
def Obligations.PlaceholderClosedForm : Prop :=
  ∀ x k : Block, placeholderBlock x k = (x <<< 32) ^^^ ((List.range 32).foldl (fun acc i => acc ^^^ (k <<< i)) 0#64)

/-- 41_chainer.md R118 (derived): the keystream byte of a `FEISTEL` session depends on the upper half of the chaining word
and the even round keys only; that of a `PLACEHOLDER` session is bits 31..24 of the chaining word XOR a constant. -/
def Obligations.KeystreamDependsOnHalfTheChain : Prop :=
  (∀ (x x' : Block) (rk rk' : RoundKeys), x.extractLsb' 32 32 = x'.extractLsb' 32 32 →
    (∀ t : Fin 16, rk[2 * t.val]'(by omega) = rk'[2 * t.val]'(by omega)) →
    keystreamByte (feistelBlock x rk) = keystreamByte (feistelBlock x' rk')) ∧
  (∀ x k : Block, keystreamByte (placeholderBlock x k) =
    x.extractLsb' 24 8 ^^^ keystreamByte ((List.range 32).foldl (fun acc i => acc ^^^ (k <<< i)) 0#64))

/-- 40_block_primitive.md R98's recurrence (derived), for any constants: the first four round keys are the key words, and
each later one is `G` of the third before it XOR a constant. That this is the schedule is an OPEN choice: entry 6. -/
def Obligations.ScheduleRecurrence : Prop :=
  ∀ (rc : RcTable) (key : Key),
    (∀ j : Fin 4, (keySchedule rc key)[j.val]'(by omega) = keyWord key j) ∧
    (∀ i : Fin 28, (keySchedule rc key)[i.val + 4]'(by omega) =
      g ((keySchedule rc key)[i.val + 1]'(by omega)) ^^^ rc[i.val]'(by omega))
end

