-- ==== Sys2Proof/Laws/Chainer.lean ====
section
/-! SUPPORT. The equations of the chainer and of the block functions, so that later proofs unfold none of them
(41_chainer.md R113, R114; 40_block_primitive.md R93 to R99). -/

namespace Sys2Proof.Machine

/-! ### One byte -/

section step

variable (blk : Block → Block) (c : Channel) (chain : Block) (b : Byte)

/-- Step 3 of R113. -/
theorem cfbStep_output : (cfbStep blk c chain b).1 = b ^^^ keystreamByte (blk chain) := rfl

/-- Step 4 of R113 when encoding: the OUTPUT byte enters the chaining word. -/
theorem cfbStep_chain_enc :
    (cfbStep blk .enc chain b).2 = nextChain chain (b ^^^ keystreamByte (blk chain)) := rfl

/-- Step 4 of R113 when decoding: the INPUT byte enters the chaining word. -/
theorem cfbStep_chain_dec : (cfbStep blk .dec chain b).2 = nextChain chain b := rfl

/-- The ciphertext byte of a step is the new low byte of the chaining word (20_memory.md R45). -/
theorem nextChain_low (ct : Byte) : (nextChain chain ct).extractLsb' 0 8 = ct := by
  ext k hk
  have h : k < 64 := by omega
  simp [nextChain, hk, h]

end step

/-! ### Whole messages -/

section messages

variable (blk : Block → Block) (c : Channel) (chain : Block) (b : Byte) (m : List Byte)

@[simp] theorem runBytes_nil : runBytes blk c chain [] = [] := rfl

theorem runBytes_cons :
    runBytes blk c chain (b :: m) = (cfbStep blk c chain b).1 :: runBytes blk c (cfbStep blk c chain b).2 m := rfl

@[simp] theorem chainAfter_nil : chainAfter blk c chain [] = chain := rfl

theorem chainAfter_cons : chainAfter blk c chain (b :: m) = chainAfter blk c (cfbStep blk c chain b).2 m := rfl

end messages

/-! ### The block function of a session -/

theorem blockFn_feistel {s : CoreState} (h : s.var = .feistel) :
    s.blockFn = some fun x => feistelBlock x s.rk := by simp [CoreState.blockFn, h]

theorem blockFn_placeholder {s : CoreState} (h : s.var = .placeholder) :
    s.blockFn = some fun x => placeholderBlock x (k64 s.key) := by simp [CoreState.blockFn, h]

theorem blockFn_eq_none {s : CoreState} : s.blockFn = none ↔ s.var = .ref ∨ s.var = .reserved := by
  cases h : s.var <;> simp [CoreState.blockFn, h]

/-! ### Rounds -/

@[simp] theorem feistelRounds_nil (lr : Half × Half) : feistelRounds [] lr = lr := rfl

/-- Two rounds: each half takes one `G`-and-XOR step, and the halves stand as before. -/
theorem feistelRounds_two (a b : Half) (ks : List Half) (l r : Half) :
    feistelRounds (a :: b :: ks) (l, r) = feistelRounds ks (g l ^^^ a, g r ^^^ b) := rfl

theorem placeholderRounds_succ (k : Block) (n : Nat) (x : Block) :
    placeholderRounds k (n + 1) x = placeholderRounds k n ((x <<< 1) ^^^ k) := rfl

end Sys2Proof.Machine
end

