-- ==== Sys2Proof/Laws/Decode.lean ====
section
/-! SUPPORT. Small lemmas of the decoder's operand fields and of the opcode map. -/

namespace Sys2Proof

@[simp] theorem Channel.ofBits_toBits (c : Channel) : Channel.ofBits c.toBits = c := by cases c <;> rfl
@[simp] theorem Variant.ofBits_toBits (v : Variant) : Variant.ofBits v.toBits = v := by cases v <;> rfl
@[simp] theorem StatusReg.ofBits_toBits (r : StatusReg) : StatusReg.ofBits r.toBits = r := by cases r <;> rfl

theorem Channel.toBits_ofBits : ∀ v : BitVec 1, (Channel.ofBits v).toBits = v := by decide
theorem Variant.toBits_ofBits : ∀ v : BitVec 2, (Variant.ofBits v).toBits = v := by decide
theorem StatusReg.toBits_ofBits : ∀ v : BitVec 2, (StatusReg.ofBits v).toBits = v := by decide

theorem Channel.toBits_injective {c d : Channel} (h : c.toBits = d.toBits) : c = d := by
  simpa using congrArg Channel.ofBits h

/-- The bits of a placed operand. -/
theorem placed_getLsbD {n : Nat} (v : BitVec n) (pos k : Nat) (hk : k < 16) :
    (placed v pos).getLsbD k = (decide (pos ≤ k) && v.getLsbD (k - pos)) := by
  by_cases h : k < pos
  · simp [placed, h, Nat.not_le.mpr h]
  · simp [placed, hk, h, Nat.not_lt.mp h]

/-- R63: "The masks are chosen so that at most one row matches any word": two rows' patterns differ in a bit that both
masks fix. -/
theorem opcodeMap_disjoint :
    opcodeMap.Pairwise fun a b => (a.pattern ^^^ b.pattern) &&& a.mask &&& b.mask ≠ 0#16 := by decide

/-- Every row's pattern lies inside its mask. -/
theorem opcodeMap_pattern_in_mask : ∀ row ∈ opcodeMap, row.pattern &&& row.mask = row.pattern := by decide

theorem tableWord_of_lt {w : Nat} (h : w < 2 ^ 16) : tableWord 16 w = some (BitVec.ofNat 16 w) := by
  rw [tableWord, Nat.mod_eq_of_lt h, if_pos h]

end Sys2Proof
end

