-- ==== Sys2Proof/Laws/State.lean ====
section
/-! SUPPORT. One lemma for each field under each named update of the state, so that no later proof unfolds a record
update. -/

namespace Sys2Proof.Machine

/-! ### `setChan`: the context of one channel -/

section setChan

variable (s : CoreState) (c : Channel) (x : ChanCtx)

@[simp] theorem setChan_phase : (s.setChan c x).phase = s.phase := by cases c <;> rfl
@[simp] theorem setChan_var : (s.setChan c x).var = s.var := by cases c <;> rfl
@[simp] theorem setChan_key : (s.setChan c x).key = s.key := by cases c <;> rfl
@[simp] theorem setChan_kmask : (s.setChan c x).kmask = s.kmask := by cases c <;> rfl
@[simp] theorem setChan_iv : (s.setChan c x).iv = s.iv := by cases c <;> rfl
@[simp] theorem setChan_ivmask : (s.setChan c x).ivmask = s.ivmask := by cases c <;> rfl
@[simp] theorem setChan_rk : (s.setChan c x).rk = s.rk := by cases c <;> rfl
@[simp] theorem setChan_errs : (s.setChan c x).errs = s.errs := by cases c <;> rfl
@[simp] theorem setChan_chan_same : (s.setChan c x).chan c = x := by cases c <;> rfl

theorem setChan_chan_other {d : Channel} (h : d ≠ c) : (s.setChan c x).chan d = s.chan d := by
  cases c <;> cases d <;> first | rfl | exact absurd rfl h

@[simp] theorem setChan_setChan (y : ChanCtx) : (s.setChan c x).setChan c y = s.setChan c y := by cases c <;> rfl
@[simp] theorem setChan_chan_self : s.setChan c (s.chan c) = s := by cases c <;> rfl

end setChan

/-- Two updates of different channels commute. -/
theorem setChan_comm (s : CoreState) {c d : Channel} (h : c ≠ d) (x y : ChanCtx) :
    (s.setChan c x).setChan d y = (s.setChan d y).setChan c x := by
  cases c <;> cases d <;> first | rfl | exact absurd rfl h

/-! ### Loads -/

section loads

variable (s : CoreState) (i : Fin 16) (j : Fin 8) (b : Byte)

@[simp] theorem loadKeyByte_phase : (s.loadKeyByte i b).phase = s.phase := rfl
@[simp] theorem loadKeyByte_var : (s.loadKeyByte i b).var = s.var := rfl
@[simp] theorem loadKeyByte_key : (s.loadKeyByte i b).key = s.key.set i.val b := rfl
@[simp] theorem loadKeyByte_kmask : (s.loadKeyByte i b).kmask = s.kmask ||| (1#16 <<< i.val) := rfl
@[simp] theorem loadKeyByte_iv : (s.loadKeyByte i b).iv = s.iv := rfl
@[simp] theorem loadKeyByte_ivmask : (s.loadKeyByte i b).ivmask = s.ivmask := rfl
@[simp] theorem loadKeyByte_rk : (s.loadKeyByte i b).rk = s.rk := rfl
@[simp] theorem loadKeyByte_chan (c : Channel) : (s.loadKeyByte i b).chan c = s.chan c := by cases c <;> rfl
@[simp] theorem loadKeyByte_errs : (s.loadKeyByte i b).errs = s.errs := rfl

@[simp] theorem loadIvByte_phase : (s.loadIvByte j b).phase = s.phase := rfl
@[simp] theorem loadIvByte_var : (s.loadIvByte j b).var = s.var := rfl
@[simp] theorem loadIvByte_key : (s.loadIvByte j b).key = s.key := rfl
@[simp] theorem loadIvByte_kmask : (s.loadIvByte j b).kmask = s.kmask := rfl
@[simp] theorem loadIvByte_iv : (s.loadIvByte j b).iv = s.iv.set j.val b := rfl
@[simp] theorem loadIvByte_ivmask : (s.loadIvByte j b).ivmask = s.ivmask ||| (1#8 <<< j.val) := rfl
@[simp] theorem loadIvByte_rk : (s.loadIvByte j b).rk = s.rk := rfl
@[simp] theorem loadIvByte_chan (c : Channel) : (s.loadIvByte j b).chan c = s.chan c := by cases c <;> rfl
@[simp] theorem loadIvByte_errs : (s.loadIvByte j b).errs = s.errs := rfl

end loads

/-! ### Construction -/

section construction

variable (s : CoreState) (p : Params) (v : Variant)

@[simp] theorem constructed_phase : (s.constructed p v).phase = .ready := rfl
@[simp] theorem constructed_var : (s.constructed p v).var = v := rfl
@[simp] theorem constructed_key : (s.constructed p v).key = s.key := rfl
@[simp] theorem constructed_kmask : (s.constructed p v).kmask = s.kmask := rfl
@[simp] theorem constructed_iv : (s.constructed p v).iv = s.iv := rfl
@[simp] theorem constructed_ivmask : (s.constructed p v).ivmask = s.ivmask := rfl
@[simp] theorem constructed_rk : (s.constructed p v).rk = if v = .feistel then p.ks p.rc s.key else s.rk := rfl
@[simp] theorem constructed_chan (c : Channel) : (s.constructed p v).chan c = s.chan c := by cases c <;> rfl
@[simp] theorem constructed_errs : (s.constructed p v).errs = s.errs := rfl

end construction

/-! ### Refusal -/

section refusal

variable (s : CoreState) (e : ErrCode)

@[simp] theorem refused_phase : (s.refused e).phase = if e = .len then .fault else s.phase := rfl
@[simp] theorem refused_var : (s.refused e).var = s.var := rfl
@[simp] theorem refused_key : (s.refused e).key = s.key := rfl
@[simp] theorem refused_kmask : (s.refused e).kmask = s.kmask := rfl
@[simp] theorem refused_iv : (s.refused e).iv = s.iv := rfl
@[simp] theorem refused_ivmask : (s.refused e).ivmask = s.ivmask := rfl
@[simp] theorem refused_rk : (s.refused e).rk = s.rk := rfl
@[simp] theorem refused_chan (c : Channel) : (s.refused e).chan c = s.chan c := by cases c <;> rfl
@[simp] theorem refused_errs : (s.refused e).errs = raised s.errs e := rfl

end refusal

/-! ### The command interface -/

section interface

variable (s : State) (w : CmdWord) (status : BitVec 4) (data : Byte) (e : ErrCode)

@[simp] theorem respond_core : (respond status data s).core = s.core := rfl
@[simp] theorem respond_pending : (respond status data s).pending = s.pending := rfl
@[simp] theorem respond_responses : (respond status data s).responses = s.responses ++ [respWord status data] := rfl

@[simp] theorem refuse_core : (refuse e s).core = s.core.refused e := rfl
@[simp] theorem refuse_pending : (refuse e s).pending = s.pending := rfl
@[simp] theorem refuse_responses :
    (refuse e s).responses = s.responses ++ [respWord (BitVec.ofNat 4 e.code) 0#8] := rfl

@[simp] theorem present_core : (present w s).core = s.core := rfl
@[simp] theorem present_pending : (present w s).pending = w :: s.pending := rfl
@[simp] theorem present_responses : (present w s).responses = s.responses := rfl

/-- The word the host presents is the one the core takes, and the state is then as before. -/
@[simp] theorem fetch_present : fetch (present w s) = some (w, s) := rfl

theorem fetch_of_pending {rest : List CmdWord} (h : s.pending = w :: rest) :
    fetch s = some (w, { s with pending := rest }) := by simp [fetch, h]

theorem fetch_of_nothing (h : s.pending = []) : fetch s = none := by simp [fetch, h]

end interface

end Sys2Proof.Machine
end

