-- ==== Sys2Proof/Laws/Ops.lean ====
section
/-! SUPPORT. What each shared operation can do, once: the checks, the refusal, the performed command. -/

namespace Sys2Proof.Machine

/-! ### The checks -/

@[simp] theorem phaseRefusal_fault (n : Option Phase) (c : CoreState) (h : c.phase = .fault) :
    phaseRefusal n c = some .fault := by simp [phaseRefusal, h]

@[simp] theorem phaseRefusal_met (c : CoreState) (q : Phase) (h : c.phase = q) (hq : q ≠ .fault) :
    phaseRefusal (some q) c = none := by simp [phaseRefusal, h, hq]

@[simp] theorem phaseRefusal_unmet (c : CoreState) (q : Phase) (h : c.phase ≠ q) (hf : c.phase ≠ .fault) :
    phaseRefusal (some q) c = some .phase := by simp [phaseRefusal, hf, Ne.symm h]

@[simp] theorem phaseRefusal_none (c : CoreState) (hf : c.phase ≠ .fault) : phaseRefusal none c = none := by
  simp [phaseRefusal, hf]

/-- Everything the phase check can say. -/
theorem phaseRefusal_cases (n : Option Phase) (c : CoreState) :
    (c.phase = .fault ∧ phaseRefusal n c = some .fault) ∨
    (c.phase ≠ .fault ∧ (n = none ∨ n = some c.phase) ∧ phaseRefusal n c = none) ∨
    (c.phase ≠ .fault ∧ n ≠ none ∧ n ≠ some c.phase ∧ phaseRefusal n c = some .phase) := by
  unfold phaseRefusal
  by_cases hf : c.phase = .fault
  · exact .inl ⟨hf, by simp [hf]⟩
  · by_cases hn : n = none ∨ n = some c.phase
    · exact .inr (.inl ⟨hf, hn, by simp [hf, hn]⟩)
    · exact .inr (.inr ⟨hf, fun h => hn (.inl h), fun h => hn (.inr h), by simp [hf, hn]⟩)

theorem phaseRefusal_eq_none {q : Phase} {c : CoreState} (h : phaseRefusal (some q) c = none) : c.phase = q := by
  rcases phaseRefusal_cases (some q) c with ⟨-, h'⟩ | ⟨-, h' | h', -⟩ | ⟨-, -, -, h'⟩ <;> simp_all

theorem busyRefusal_eq_none {x : ChanCtx} (h : busyRefusal x = none) : x.active = false := by
  cases hx : x.active <;> simp_all [busyRefusal]

theorem idleRefusal_eq_none {x : ChanCtx} (h : idleRefusal x = none) : x.active = true := by
  cases hx : x.active <;> simp_all [idleRefusal]

theorem lengthRefusal_eq_none {c : CoreState} (h : lengthRefusal c = none) :
    c.kmask = 0xFFFF#16 ∧ c.ivmask = 0xFF#8 := by
  simpa [lengthRefusal, CoreState.kfull, CoreState.ivfull] using h

theorem variantRefusal_eq_none {v : Variant} (h : variantRefusal v = none) : v = .placeholder ∨ v = .feistel := by
  cases v <;> simp_all [variantRefusal]

/-! ### Refused or performed -/

@[simp] theorem unlessRefused_some (e : ErrCode) (s : State) (o : Host.Outcome State Fault Refusal) :
    unlessRefused (some e) s o = .next (refuse e s) := rfl

@[simp] theorem unlessRefused_none (s : State) (o : Host.Outcome State Fault Refusal) : unlessRefused none s o = o := rfl

/-- A command with checks that answers a next state was refused with the code its checks decide, or was performed. -/
theorem unlessRefused_cases {r : Option ErrCode} {s t : State} {o : Host.Outcome State Fault Refusal}
    (h : unlessRefused r s o = .next t) : (∃ e, r = some e ∧ t = refuse e s) ∨ (r = none ∧ o = .next t) := by
  cases r with
  | some e => exact .inl ⟨e, rfl, by simpa using h.symm⟩
  | none => exact .inr ⟨rfl, by simpa using h⟩

/-- The state a performed command leaves. -/
def after (core : CoreState) (data : Byte) (s : State) : State := respond 0#4 data { s with core := core }

@[simp] theorem performed_eq (core : CoreState) (data : Byte) (s : State) :
    performed core data s = .next (after core data s) := rfl

section after

variable (core : CoreState) (data : Byte) (s : State)

@[simp] theorem after_core : (after core data s).core = core := rfl
@[simp] theorem after_pending : (after core data s).pending = s.pending := rfl
@[simp] theorem after_responses : (after core data s).responses = s.responses ++ [respWord 0#4 data] := rfl

end after

/-! ### The words and bits of each refusal -/

theorem respWord_data (b : Byte) : respWord 0#4 b = b.setWidth 16 := by revert b; decide

theorem respWord_zero : respWord 0#4 0x00#8 = 0x0000#16 := rfl

/-- R150's state after each refusal, spelled out: the `ERRS` bit and the response word. -/
theorem refuse_eq (e : ErrCode) (s : State) :
    refuse e s = ⟨{ s.core with errs := s.core.errs ||| (1#8 <<< (e.code - 1)),
                                phase := if e = .len then .fault else s.core.phase },
      s.pending, s.responses ++ [BitVec.ofNat 16 (e.code * 0x1000)]⟩ := by cases e <;> rfl

/-- Every code is one of 1 to 7 (R151). -/
theorem ErrCode.code_range (e : ErrCode) : 1 ≤ e.code ∧ e.code ≤ 7 := by cases e <;> decide

/-- No refusal sets `ERRS` bit 7 (10_state.md R27). -/
theorem ErrCode.bit_top (e : ErrCode) : e.bit.getLsbD 7 = false := by cases e <;> decide

theorem raised_getLsbD (errs : BitVec 8) (e : ErrCode) (k : Nat) :
    (raised errs e).getLsbD k = (errs.getLsbD k || e.bit.getLsbD k) := by simp [raised]

end Sys2Proof.Machine
end

