-- ==== Sys2Proof/Laws/Commands.lean ====
section
/-! SUPPORT. What a command and a step can do, once: later proofs split on these instead of unfolding `exec`. -/

namespace Sys2Proof.Machine

/-- The core and the data byte a command leaves when it is performed, for a choice of the OPEN parameters; `none` where
`BYTE` has no block function. -/
def effect (p : Params) (i : Instr) (c : CoreState) : Option (CoreState × Byte) :=
  match i with
  | .nop => some (c, 0#8)
  | .ldk k b => some (c.loadKeyByte k b, 0#8)
  | .ldiv k b => some (c.loadIvByte k b, 0#8)
  | .init v => some (c.constructed p v, 0#8)
  | .start ch => some (c.setChan ch { c.chan ch with active := true, chain := ivWord c.iv }, 0#8)
  | .byte ch b => c.blockFn.map fun blk =>
      let oc := cfbStep blk ch (c.chan ch).chain b
      (c.setChan ch { c.chan ch with chain := oc.2, dout := oc.1 }, oc.1)
  | .endMsg ch => some (c.setChan ch { c.chan ch with active := false, chain := 0#64 }, 0#8)
  | .rdst r => some (c, c.statusReg r)
  | .reset => some (.reset, 0#8)

/-- The code the checks of a command decide, `none` if they all pass. -/
def refusal (i : Instr) (c : CoreState) : Option ErrCode :=
  match i with
  | .nop => phaseRefusal none c
  | .ldk _ _ => phaseRefusal (some .unconf) c
  | .ldiv _ _ => phaseRefusal (some .unconf) c
  | .init v => initRefusal v c
  | .start ch => (phaseRefusal (some .ready) c).or (busyRefusal (c.chan ch))
  | .byte ch _ => (phaseRefusal (some .ready) c).or (idleRefusal (c.chan ch))
  | .endMsg ch => (phaseRefusal (some .ready) c).or (idleRefusal (c.chan ch))
  | .rdst _ => none
  | .reset => none

/-- `exec` in two parts: its checks, then its effect. -/
theorem exec_eq (i : Instr) (s : State) :
    exec i s = unlessRefused (refusal i s.core) s
      (match effect defaultParams i s.core with
      | some (core, data) => performed core data s
      | none => .fault .noBlockFunction) := by
  cases i with
  | byte c b => simp only [exec, execByte, refusal, effect]; cases s.core.blockFn <;> rfl
  | _ => rfl

/-- Everything a command can do when it answers a next state. -/
theorem exec_cases {i : Instr} {s t : State} (h : exec i s = .next t) :
    (∃ e, refusal i s.core = some e ∧ t = refuse e s) ∨
    (refusal i s.core = none ∧ ∃ core data, effect defaultParams i s.core = some (core, data) ∧ t = after core data s) := by
  rw [exec_eq] at h
  rcases unlessRefused_cases h with h | ⟨hr, h⟩
  · exact .inl h
  · refine .inr ⟨hr, ?_⟩
    cases he : effect defaultParams i s.core with
    | none => simp [he] at h
    | some cd => exact ⟨cd.1, cd.2, rfl, by simpa [he] using h.symm⟩

/-- A step with a legal word presented. -/
theorem step_command {s : State} {w : CmdWord} {rest : List CmdWord} {i : Instr} (hp : s.pending = w :: rest)
    (hd : decode w = .command i) : step s = exec i { s with pending := rest } := by
  simp [step, fetch_of_pending s w hp, hd]

/-- A step with an illegal word presented. -/
theorem step_illegal {s : State} {w : CmdWord} {rest : List CmdWord} {why : IllegalWord} (hp : s.pending = w :: rest)
    (hd : decode w = .illegal why) : step s = .next (refuse .illegal { s with pending := rest }) := by
  simp [step, fetch_of_pending s w hp, hd, execIllegal]

/-- Everything a step can do when it answers a next state. -/
theorem step_cases {s t : State} (h : step s = .next t) :
    (s.pending = [] ∧ t = s) ∨
    (∃ w rest, s.pending = w :: rest ∧
      ((∃ i, decode w = .command i ∧ exec i { s with pending := rest } = .next t) ∨
       (∃ why, decode w = .illegal why ∧ t = refuse .illegal { s with pending := rest }))) := by
  cases hp : s.pending with
  | nil =>
    simp only [step, fetch_of_nothing s hp, execIdle] at h
    injection h with h
    exact .inl ⟨rfl, h.symm⟩
  | cons w rest =>
    refine .inr ⟨w, rest, rfl, ?_⟩
    cases hd : decode w with
    | command i => exact .inl ⟨i, rfl, by rw [← step_command hp hd]; exact h⟩
    | illegal why =>
      refine .inr ⟨why, rfl, ?_⟩
      rw [step_illegal hp hd] at h
      injection h with h
      exact h.symm

/-! ### Runs -/

@[simp] theorem run_zero (s : State) : Sys2Proof.core.run 0 s = .next s := rfl

/-- A run goes on from the state a step answers. -/
theorem run_of_step {s t : State} (n : Nat) (h : step s = .next t) :
    Sys2Proof.core.run (n + 1) s = Sys2Proof.core.run n t := by
  have h' : Sys2Proof.core.step s = .next t := h
  simp only [Host.Core.run, h']

/-- A run stops where a step faults. -/
theorem run_of_fault {s : State} {r : Fault} (n : Nat) (h : step s = .fault r) :
    Sys2Proof.core.run (n + 1) s = .fault r := by
  have h' : Sys2Proof.core.step s = .fault r := h
  simp only [Host.Core.run, h']

/-- A run stops where a step is refused. -/
theorem run_of_refused {s : State} {r : Refusal} (n : Nat) (h : step s = .refused r) :
    Sys2Proof.core.run (n + 1) s = .refused r := by
  have h' : Sys2Proof.core.step s = .refused r := h
  simp only [Host.Core.run, h']

/-- A run of `n + 1` steps that answers a next state begins with a step that does. -/
theorem run_succ_cases {s u : State} {n : Nat} (h : Sys2Proof.core.run (n + 1) s = .next u) :
    ∃ t, step s = .next t ∧ Sys2Proof.core.run n t = .next u := by
  cases hs : step s with
  | next t => exact ⟨t, rfl, by rw [← run_of_step n hs]; exact h⟩
  | fault r => rw [run_of_fault n hs] at h; injection h
  | refused r => rw [run_of_refused n hs] at h; injection h

end Sys2Proof.Machine
end

