-- ==== Sys2Proof/Laws/PerInstr.lean ====
section
/-! SUPPORT. A fact of every command as syntax: the encoder never sets a bit that the command's format requires to be zero
(30_encoding.md R61, R65). -/

namespace Sys2Proof.Laws.EncodeFitsFormat

/-- The word of a command passes the three checks of WellFormed.lean. -/
def Statement (i : Instr) : Prop := (CmdFields.ofWord (encode i)).wellFormed = true

theorem nop : Statement .nop := rfl
theorem init (v : Variant) : Statement (.init v) := by cases v <;> rfl
theorem start (c : Channel) : Statement (.start c) := by cases c <;> rfl
theorem endMsg (c : Channel) : Statement (.endMsg c) := by cases c <;> rfl
theorem rdst (r : StatusReg) : Statement (.rdst r) := by cases r <;> rfl
theorem reset : Statement .reset := rfl

/-- A word whose opcode nibble has a format that leaves the whole of `imm` to the operand fits it when `idx` does. -/
theorem fits_of_imm_free {f : CmdFields} {t : Format} (ht : Format.ofOp f.op = some t) (hi : f.idx &&& ~~~t.idxBits = 0#4)
    (hm : t.immBits = 0xFF#8) : f.wellFormed = true := by
  simp [CmdFields.wellFormed, CmdFields.hasRow, CmdFields.idxOk, CmdFields.immOk, ht, hi, hm]

theorem ldk (i : Fin 16) (b : Byte) : Statement (.ldk i b) := by
  refine fits_of_imm_free (t := .kb) ?_ ?_ rfl
  · have h : (CmdFields.ofWord (encode (.ldk i b))).op = 0x1#4 := by
      ext k hk
      interval_cases k <;> simp [CmdFields.ofWord, encode, placed]
    rw [h]; rfl
  · simp [Format.idxBits]

theorem ldiv (i : Fin 8) (b : Byte) : Statement (.ldiv i b) := by
  refine fits_of_imm_free (t := .ib) ?_ ?_ rfl
  · have h : (CmdFields.ofWord (encode (.ldiv i b))).op = 0x2#4 := by
      ext k hk
      interval_cases k <;> simp [CmdFields.ofWord, encode, placed]
    rw [h]; rfl
  · ext k hk
    interval_cases k <;> simp [CmdFields.ofWord, encode, placed, Format.idxBits]

theorem byte (c : Channel) (b : Byte) : Statement (.byte c b) := by
  refine fits_of_imm_free (t := .cb) ?_ ?_ rfl
  · have h : (CmdFields.ofWord (encode (.byte c b))).op = 0x5#4 := by
      ext k hk
      cases c <;> interval_cases k <;> simp [CmdFields.ofWord, encode, placed, Channel.toBits]
    rw [h]; rfl
  · ext k hk
    cases c <;> interval_cases k <;> simp [CmdFields.ofWord, encode, placed, Format.idxBits, Channel.toBits]

end Sys2Proof.Laws.EncodeFitsFormat
end

