-- ==== Sys2Proof/Laws/Sequences.lean ====
section
/-! SUPPORT. What each command answers when its checks pass, and what sequences of commands do (30_encoding.md R70;
20_memory.md R49). -/

namespace Sys2Proof.Machine

/-! ### Performed commands -/

section performed

variable {s : State} {c : Channel} {b : Byte}

theorem exec_ldk_unconf {k : Fin 16} (h : s.core.phase = .unconf) :
    exec (.ldk k b) s = .next (after (s.core.loadKeyByte k b) 0#8 s) := by simp [exec, execLdk, h]

theorem exec_ldiv_unconf {k : Fin 8} (h : s.core.phase = .unconf) :
    exec (.ldiv k b) s = .next (after (s.core.loadIvByte k b) 0#8 s) := by simp [exec, execLdiv, h]

theorem exec_reset : exec .reset s = .next (after .reset 0#8 s) := rfl

theorem exec_rdst {r : StatusReg} : exec (.rdst r) s = .next (after s.core (s.core.statusReg r) s) := rfl

theorem exec_start_idle (h : s.core.phase = .ready) (ha : (s.core.chan c).active = false) :
    exec (.start c) s =
      .next (after (s.core.setChan c { s.core.chan c with active := true, chain := ivWord s.core.iv }) 0#8 s) := by
  simp [exec, execStart, h, ha, busyRefusal]

theorem exec_byte_active {blk : Block → Block} (h : s.core.phase = .ready) (ha : (s.core.chan c).active = true)
    (hb : s.core.blockFn = some blk) :
    exec (.byte c b) s =
      .next (after (s.core.setChan c { s.core.chan c with chain := (cfbStep blk c (s.core.chan c).chain b).2,
                                                          dout := (cfbStep blk c (s.core.chan c).chain b).1 })
        (cfbStep blk c (s.core.chan c).chain b).1 s) := by
  simp [exec, execByte, h, ha, idleRefusal, hb, chainByte]

theorem exec_endMsg_active (h : s.core.phase = .ready) (ha : (s.core.chan c).active = true) :
    exec (.endMsg c) s =
      .next (after (s.core.setChan c { s.core.chan c with active := false, chain := 0#64 }) 0#8 s) := by
  simp [exec, execEnd, h, ha, idleRefusal]

end performed

@[simp] theorem setChan_blockFn (s : CoreState) (c : Channel) (x : ChanCtx) :
    (s.setChan c x).blockFn = s.blockFn := by cases c <;> rfl

/-! ### Sequences -/

@[simp] theorem execAll_nil (s : State) : execAll [] s = .next s := rfl

theorem execAll_cons_next {i : Instr} {s t : State} (is : List Instr) (h : exec i s = .next t) :
    execAll (i :: is) s = execAll is t := by simp [execAll, h]

theorem execAll_append (xs ys : List Instr) (s : State) :
    execAll (xs ++ ys) s =
      match execAll xs s with
      | .next t => execAll ys t
      | .fault r => .fault r
      | .refused r => .refused r := by
  induction xs generalizing s with
  | nil => rfl
  | cons i xs ih =>
    rw [List.cons_append]
    cases h : exec i s with
    | next t => rw [execAll_cons_next _ h, execAll_cons_next _ h, ih]
    | fault r => simp [execAll, h]
    | refused r => simp [execAll, h]

theorem execAll_append_next {xs : List Instr} {s t : State} (ys : List Instr) (h : execAll xs s = .next t) :
    execAll (xs ++ ys) s = execAll ys t := by rw [execAll_append, h]

/-- The `BYTE` commands of a message, in an open channel: every one answers, and the channel ends with the chaining word
and the last output byte of the message. -/
theorem execAll_bytes {c : Channel} {blk : Block → Block} (m : List Byte) {s : State} (h : s.core.phase = .ready)
    (ha : (s.core.chan c).active = true) (hb : s.core.blockFn = some blk) :
    execAll (m.map (.byte c)) s =
      .next ⟨s.core.setChan c ⟨true, chainAfter blk c (s.core.chan c).chain m,
          (runBytes blk c (s.core.chan c).chain m).getLast?.getD (s.core.chan c).dout⟩,
        s.pending, s.responses ++ (runBytes blk c (s.core.chan c).chain m).map fun o => o.setWidth 16⟩ := by
  induction m generalizing s with
  | nil =>
    have hx : (⟨true, (s.core.chan c).chain, (s.core.chan c).dout⟩ : ChanCtx) = s.core.chan c := by rw [← ha]
    simp [hx]
  | cons b m ih =>
    rw [List.map_cons, execAll_cons_next _ (exec_byte_active h ha hb),
      ih (by simpa using h) (by simpa using ha) (by simpa using hb)]
    simp [runBytes_cons, chainAfter_cons, respWord_data, List.getLast?_cons]

/-! ### Loads -/

/-- The core after a list of key loads. -/
def loadKeyBytes (f : Fin 16 → Byte) (l : List (Fin 16)) (c : CoreState) : CoreState :=
  { c with key := l.foldl (fun key i => key.set i.val (f i)) c.key,
           kmask := l.foldl (fun m i => m ||| (1#16 <<< i.val)) c.kmask }

/-- The core after a list of IV loads. -/
def loadIvBytes (f : Fin 8 → Byte) (l : List (Fin 8)) (c : CoreState) : CoreState :=
  { c with iv := l.foldl (fun iv i => iv.set i.val (f i)) c.iv,
           ivmask := l.foldl (fun m i => m ||| (1#8 <<< i.val)) c.ivmask }

/-- In `UNCONF`, a list of key loads answers OK each time. -/
theorem execAll_ldk (f : Fin 16 → Byte) (l : List (Fin 16)) (s : State) (h : s.core.phase = .unconf) :
    execAll (l.map fun i => .ldk i (f i)) s =
      .next ⟨loadKeyBytes f l s.core, s.pending, s.responses ++ List.replicate l.length 0x0000#16⟩ := by
  induction l generalizing s with
  | nil => simp [loadKeyBytes]
  | cons i l ih =>
    rw [List.map_cons, execAll_cons_next _ (exec_ldk_unconf h), ih _ (by simpa using h)]
    simp [loadKeyBytes, after, respond, respWord_zero, CoreState.loadKeyByte, List.replicate_succ]

/-- In `UNCONF`, a list of IV loads answers OK each time. -/
theorem execAll_ldiv (f : Fin 8 → Byte) (l : List (Fin 8)) (s : State) (h : s.core.phase = .unconf) :
    execAll (l.map fun i => .ldiv i (f i)) s =
      .next ⟨loadIvBytes f l s.core, s.pending, s.responses ++ List.replicate l.length 0x0000#16⟩ := by
  induction l generalizing s with
  | nil => simp [loadIvBytes]
  | cons i l ih =>
    rw [List.map_cons, execAll_cons_next _ (exec_ldiv_unconf h), ih _ (by simpa using h)]
    simp [loadIvBytes, after, respond, respWord_zero, CoreState.loadIvByte, List.replicate_succ]

/-- Storing each byte of a vector at its own index, in a list of indices that has them all, gives the vector. -/
theorem foldl_set_eq {n : Nat} (v : Vector Byte n) (l : List (Fin n)) (hl : ∀ i, i ∈ l) (start : Vector Byte n) :
    l.foldl (fun (acc : Vector Byte n) i => acc.set i.val v[i]) start = v := by
  have main : ∀ (l : List (Fin n)) (acc : Vector Byte n) (j : Fin n), j ∈ l ∨ acc[j] = v[j] →
      (l.foldl (fun (acc : Vector Byte n) i => acc.set i.val v[i]) acc)[j] = v[j] := by
    intro l
    induction l with
    | nil => intro acc j h; simpa using h
    | cons i l ih =>
      intro acc j h
      refine ih _ j ?_
      by_cases hj : j ∈ l
      · exact .inl hj
      · refine .inr ?_
        by_cases hij : i = j
        · subst hij; simp
        · have hne : i.val ≠ j.val := fun e => hij (Fin.ext e)
          have hacc : acc[j] = v[j] := by
            rcases h with h | h
            · rcases List.mem_cons.mp h with h | h
              · exact absurd h.symm hij
              · exact absurd h hj
            · exact h
          simpa [Vector.getElem_set, hne] using hacc
  exact Vector.ext fun j hj => by simpa using main l start ⟨j, hj⟩ (.inl (hl _))

end Sys2Proof.Machine
end

