-- ==== Sys2Proof/Machine/Assembler.lean ====
section
/-! DEFINITION. The assembler of 30_encoding.md R69, with the pseudo-instructions of R70: from the characters of a line to
its commands. What R69 leaves open of the text is in entry 16. -/

namespace Sys2Proof.Machine

/-! ### Characters and tokens -/

def isBlank (ch : Char) : Bool := ch == ' ' || ch == '\t'

/-- A `;` starts a comment. -/
def withoutComment (line : List Char) : List Char := line.takeWhile (· != ';')

def trimmed (cs : List Char) : List Char := ((cs.dropWhile isBlank).reverse.dropWhile isBlank).reverse

/-- The pieces between commas. -/
def commaPieces : List Char → List (List Char)
  | [] => [[]]
  | ',' :: cs => [] :: commaPieces cs
  | ch :: cs =>
    match commaPieces cs with
    | [] => [[ch]]
    | piece :: rest => (ch :: piece) :: rest

/-- The operands of a line: none at all, or pieces between commas. -/
def operandPieces (cs : List Char) : List (List Char) :=
  if trimmed cs = [] then [] else (commaPieces cs).map trimmed

/-! ### Numbers: "decimal, or hexadecimal with a `0x` prefix" -/

def decDigit (ch : Char) : Option Nat := if '0' ≤ ch ∧ ch ≤ '9' then some (ch.toNat - '0'.toNat) else none

def hexDigit (ch : Char) : Option Nat :=
  if '0' ≤ ch ∧ ch ≤ '9' then some (ch.toNat - '0'.toNat)
  else if 'A' ≤ ch ∧ ch ≤ 'F' then some (ch.toNat - 'A'.toNat + 10)
  else if 'a' ≤ ch ∧ ch ≤ 'f' then some (ch.toNat - 'a'.toNat + 10)
  else none

/-- A non-empty row of digits in a base. -/
def digitsValue (digit : Char → Option Nat) (base : Nat) (cs : List Char) : Option Nat :=
  if cs = [] then none
  else cs.foldl (fun acc ch => acc.bind fun n => (digit ch).map fun d => n * base + d) (some 0)

def numberOf (cs : List Char) : Option Nat :=
  match cs with
  | '0' :: 'x' :: ds => digitsValue hexDigit 16 ds
  | ds => digitsValue decDigit 10 ds

/-- An operand that is a number or one of the symbolic names of R69. -/
def valueOf (names : List (String × Nat)) (cs : List Char) : Option Nat :=
  match names.find? (fun p => p.1.toList == cs) with
  | some p => some p.2
  | none => numberOf cs

/-! ### Operands, each in its range (R62) -/

def keyIndexOperand (cs : List Char) : Option (Fin 16) :=
  (numberOf cs).bind fun n => if h : n < 16 then some ⟨n, h⟩ else none

def ivIndexOperand (cs : List Char) : Option (Fin 8) :=
  (numberOf cs).bind fun n => if h : n < 8 then some ⟨n, h⟩ else none

def byteOperand (cs : List Char) : Option Byte :=
  (numberOf cs).bind fun n => if n < 256 then some (BitVec.ofNat 8 n) else none

def variantOperand (cs : List Char) : Option Variant :=
  (valueOf [("PLACEHOLDER", 1), ("FEISTEL", 2)] cs).bind fun n =>
    if n < 4 then some (.ofBits (BitVec.ofNat 2 n)) else none

def channelOperand (cs : List Char) : Option Channel :=
  (valueOf [("ENC", 0), ("DEC", 1)] cs).bind fun n => if n < 2 then some (.ofBits (BitVec.ofNat 1 n)) else none

def statusRegOperand (cs : List Char) : Option StatusReg :=
  (valueOf [("STATUS", 0), ("ERRS", 1), ("DOUT0", 2), ("DOUT1", 3)] cs).bind fun n =>
    if n < 4 then some (.ofBits (BitVec.ofNat 2 n)) else none

def bytesOperand (ops : List (List Char)) : Option (List Byte) := ops.mapM byteOperand

def keyOperand (bs : List Byte) : Option Key := if h : bs.length = 16 then some ⟨bs.toArray, by simpa using h⟩ else none

def ivOperand (bs : List Byte) : Option IvBytes := if h : bs.length = 8 then some ⟨bs.toArray, by simpa using h⟩ else none

/-! ### Lines -/

/-- One command: the mnemonic's operands in the order of R63's operand column. -/
def commandOf (m : Mnemonic) (ops : List (List Char)) : Option Instr :=
  match m, ops with
  | .NOP, [] => some .nop
  | .LDK, [i, b] => (keyIndexOperand i).bind fun i => (byteOperand b).map (.ldk i)
  | .LDIV, [i, b] => (ivIndexOperand i).bind fun i => (byteOperand b).map (.ldiv i)
  | .INIT, [v] => (variantOperand v).map .init
  | .START, [c] => (channelOperand c).map .start
  | .BYTE, [c, b] => (channelOperand c).bind fun c => (byteOperand b).map (.byte c)
  | .END, [c] => (channelOperand c).map .endMsg
  | .RDST, [r] => (statusRegOperand r).map .rdst
  | .RESET, [] => some .reset
  | _, _ => none

/-- The mnemonics in upper case. -/
def mnemonicNames : List (String × Mnemonic) :=
  [("NOP", .NOP), ("LDK", .LDK), ("LDIV", .LDIV), ("INIT", .INIT), ("START", .START), ("BYTE", .BYTE), ("END", .END),
   ("RDST", .RDST), ("RESET", .RESET)]

/-- One pseudo-instruction of R70, by its name. -/
def pseudoOf (name : List Char) (ops : List (List Char)) : Option Pseudo :=
  if name = "LOADKEY".toList then (bytesOperand ops).bind fun bs => (keyOperand bs).map .loadKey
  else if name = "LOADIV".toList then (bytesOperand ops).bind fun bs => (ivOperand bs).map .loadIv
  else if name = "SETUP".toList then
    match ops with
    | [] => none
    | v :: rest =>
      (variantOperand v).bind fun v => (bytesOperand rest).bind fun bs =>
        (keyOperand (bs.take 16)).bind fun k => (ivOperand (bs.drop 16)).map (.setup v k)
  else if name = "ENCB".toList then (bytesOperand ops).bind fun bs => if let [b] := bs then some (.encb b) else none
  else if name = "DECB".toList then (bytesOperand ops).bind fun bs => if let [b] := bs then some (.decb b) else none
  else if name = "ENCODE".toList then (bytesOperand ops).map .encode
  else if name = "DECODE".toList then (bytesOperand ops).map .decode
  else none

/-- One source line: no command (empty, or only a comment), a command, or a pseudo-instruction's expansion; `none` for
text that is no line of R69 or R70. -/
def assembleLine (line : List Char) : Option (List Instr) :=
  let cs := (withoutComment line).dropWhile isBlank
  let name := cs.takeWhile (!isBlank ·)
  let ops := operandPieces (cs.dropWhile (!isBlank ·))
  if name = [] then some []
  else
    match mnemonicNames.find? (fun p => p.1.toList == name) with
    | some p => (commandOf p.2 ops).map ([·])
    | none => (pseudoOf name ops).map Pseudo.expand

/-- A source text, line by line, to the command words it stands for. -/
def assemble (lines : List String) : Option (List CmdWord) :=
  (lines.mapM fun l => assembleLine l.toList).map fun css => css.flatten.map encode

end Sys2Proof.Machine
end

