-- ==== Sys2Proof/Tests/Slice0.lean ====
section
/-! SUPPORT. The model's own tests: expected values are the spec's (95_test_vectors.md and the rules' worked examples), and
for each obligation with hypotheses a named witness that meets them. -/

namespace Sys2Proof.Tests

open Sys2Proof.Machine Sys2Proof.Safety

/-! ## WellFormed: each of the three checks refuses a word, and a legal word passes -/

theorem test_hasRow_refuses_opcode_8 : (CmdFields.ofWord 0x8000#16).hasRow = false := by decide
theorem test_idxOk_refuses_ldiv_index_8 : (CmdFields.ofWord 0x2800#16).idxOk = false := by decide
theorem test_immOk_refuses_init_4 : (CmdFields.ofWord 0x3004#16).immOk = false := by decide
theorem test_wellFormed_accepts_rdst_3 : (CmdFields.ofWord 0x7300#16).wellFormed = true := by decide

/-! ## Decoding: words written bit by bit from the patterns of R61 -/

theorem test_decode_nop : decode (0b0000#4 ++ 0b0000#4 ++ 0b00000000#8) = .command .nop := by decide
theorem test_decode_ldk : decode (0b0001#4 ++ 0b1010#4 ++ 0b10100101#8) = .command (.ldk 10 0xA5#8) := by decide
theorem test_decode_ldiv : decode (0b0010#4 ++ 0b0111#4 ++ 0b11101111#8) = .command (.ldiv 7 0xEF#8) := by decide
theorem test_decode_init : decode (0b0011#4 ++ 0b0000#4 ++ 0b00000010#8) = .command (.init .feistel) := by decide
theorem test_decode_init_reserved : decode (0b0011#4 ++ 0b0000#4 ++ 0b00000011#8) = .command (.init .reserved) := by decide
theorem test_decode_start : decode (0b0100#4 ++ 0b0001#4 ++ 0b00000000#8) = .command (.start .dec) := by decide
theorem test_decode_byte : decode (0b0101#4 ++ 0b0001#4 ++ 0b00111111#8) = .command (.byte .dec 0x3F#8) := by decide
theorem test_decode_end : decode (0b0110#4 ++ 0b0000#4 ++ 0b00000000#8) = .command (.endMsg .enc) := by decide
theorem test_decode_rdst : decode (0b0111#4 ++ 0b0010#4 ++ 0b00000000#8) = .command (.rdst .dout0) := by decide
theorem test_decode_reset : decode (0b1111#4 ++ 0b0000#4 ++ 0b00000000#8) = .command .reset := by decide

/-- V7.3, all of its words. -/
theorem test_decode_refuses_v7_3 :
    ([0x0001#16, 0x00FF#16, 0x0100#16, 0x2800#16, 0x2FFF#16, 0x3004#16, 0x3100#16, 0x4001#16, 0x4200#16, 0x5200#16,
      0x5F00#16, 0x6010#16, 0x7400#16, 0x7001#16, 0xF001#16, 0xFFFF#16].all
        fun w => decide (decode w = .illegal .reservedBits)) = true := by decide

theorem test_decode_refuses_opcodes_without_row :
    ([0x8000#16, 0x9000#16, 0xE000#16].all fun w => decide (decode w = .illegal .unassignedOpcode)) = true := by decide

theorem test_table_word : decodeTableWord 16 0x513F = some (.byte .dec 0x3F#8) := by decide
theorem test_table_word_too_long : decodeTableWord 24 0x10000 = none := by decide

/-! ## The cipher's functions: section 2 to 4 of 95_test_vectors.md -/

def key1 : Key := ⟨#[0x00#8, 0x01#8, 0x02#8, 0x03#8, 0x04#8, 0x05#8, 0x06#8, 0x07#8,
  0x08#8, 0x09#8, 0x0A#8, 0x0B#8, 0x0C#8, 0x0D#8, 0x0E#8, 0x0F#8], rfl⟩

def keyZ : Key := Vector.replicate 16 0x00#8

def iv1 : IvBytes := ⟨#[0x01#8, 0x23#8, 0x45#8, 0x67#8, 0x89#8, 0xAB#8, 0xCD#8, 0xEF#8], rfl⟩

/-- V2.1. -/
theorem test_g : g 0x12345678#32 = 0x163CDA78#32 ∧ g 0xDEADBEEF#32 = 0x4BBEE334#32 := by decide

/-- V2.2. -/
theorem test_round : round 0x12345678#32 0x9ABCDEF0#32 0x0F0F0F0F#32 = (0x9ABCDEF0#32, 0x1933D577#32) := by decide

/-- R97's bits: every constant is 0xFFFFFFFC XOR a bit, and the bits, packed, are 0x9A42BB1F. -/
theorem test_constants : ∀ i : Fin 32, rcDefault[i] = 0xFFFFFFFC#32 ^^^ (0x9A42BB1F#32 >>> i.val &&& 1#32) := by decide +kernel

/-- V2.4, key `K1`. -/
theorem test_schedule : (keySchedule rcDefault key1)[3] = 0x0C0D0E0F#32 ∧
    (keySchedule rcDefault key1)[4] = 0xFBFAF9FA#32 ∧ (keySchedule rcDefault key1)[31] = 0xCB1464CB#32 := by decide

/-- V3.1, keys `KZ` and `K1`. -/
theorem test_feistel_block :
    feistelBlock 0x0000000000000000#64 (keySchedule rcDefault keyZ) = 0x0D7E7CB17AA61E1A#64 ∧
    feistelBlock 0x0123456789ABCDEF#64 (keySchedule rcDefault key1) = 0x4DE6A2AB94167FF4#64 := by decide

/-- R96's worked example. -/
theorem test_placeholder_block : placeholderBlock 0x0123456789ABCDEF#64 (k64 key1) = 0x8A57CE1303FCFDFD#64 := by
  decide +kernel

/-- R42's and R43's examples. -/
theorem test_key_words : keyWord key1 1 = 0x04050607#32 ∧ k64 key1 = 0x0001020304050607#64 := by decide

/-! ## Small states -/

/-- `UNCONF` with key `K1` and IV `IV1` loaded. -/
def loaded : State :=
  { State.reset with core := { CoreState.reset with key := key1, kmask := 0xFFFF#16, iv := iv1, ivmask := 0xFF#8 } }

/-- A `FEISTEL` session with key `K1` and IV `IV1`. -/
def feistelState : State :=
  { loaded with core := { loaded.core with phase := .ready, var := .feistel, rk := keySchedule rcDefault key1 } }

/-- A `PLACEHOLDER` session with key `K1` and IV `IV1`. -/
def placeholderState : State := { loaded with core := { loaded.core with phase := .ready, var := .placeholder } }

/-- Both channels in a message. -/
def opened (s : State) : State :=
  { s with core := { s.core with chan0 := ⟨true, 0x0123456789ABCDEF#64, 0#8⟩, chan1 := ⟨true, 0x0123456789ABCDEF#64, 0#8⟩ } }

/-- After a failed construction (P3). -/
def faulted : State := { State.reset with core := { CoreState.reset with phase := .fault, errs := 0x08#8 } }

/-- The last response and one view of the core after a command. -/
def answer {α : Type} (view : CoreState → α) (i : Instr) (s : State) : Option (Option RespWord × α) :=
  match exec i s with
  | .next t => some (t.responses.getLast?, view t.core)
  | _ => none

/-! ## Commands: one step each -/

/-- V7.4. -/
theorem test_nop_in_fault : answer CoreState.errs .nop faulted = some (some 0x2000#16, 0x0A#8) := by decide

/-- R131's worked example. -/
theorem test_ldk : answer (fun c => (c.key[10], c.kmask)) (.ldk 10 0xA5#8) State.reset =
    some (some 0x0000#16, 0xA5#8, 0x0400#16) := by decide

/-- V7.4: `LDK` in `READY`, `KEY[0]` not written. -/
theorem test_ldk_in_ready : answer (fun c => (c.key[0], c.errs)) (.ldk 0 0xFF#8) feistelState =
    some (some 0x3000#16, 0x00#8, 0x04#8) := by decide

/-- R132's worked example. -/
theorem test_ldiv : answer (fun c => (c.iv[7], c.ivmask)) (.ldiv 7 0xEF#8) State.reset =
    some (some 0x0000#16, 0xEF#8, 0x80#8) := by decide

/-- P2's end state: `RK[4]`, `STATUS`. -/
theorem test_init_feistel : answer (fun c => (c.rk[4], c.statusView)) (.init .feistel) loaded =
    some (some 0x0000#16, 0xFBFAF9FA#32, 0xC9#8) := by decide

/-- P3: `INIT 2` with an incomplete key. -/
theorem test_init_incomplete : answer (fun c => (c.errs, c.statusView)) (.init .feistel) State.reset =
    some (some 0x4000#16, 0x08#8, 0x02#8) := by decide

/-- R110's worked example. -/
theorem test_start : answer CoreState.chan0 (.start .enc) feistelState =
    some (some 0x0000#16, ⟨true, 0x0123456789ABCDEF#64, 0x00#8⟩) := by decide

/-- V7.4. -/
theorem test_start_busy : answer CoreState.errs (.start .enc) (opened feistelState) = some (some 0x6000#16, 0x20#8) := by
  decide

/-- T2, the first byte: the OUTPUT enters the chaining word. -/
theorem test_byte_encode : answer CoreState.chan0 (.byte .enc 0x48#8) (opened feistelState) =
    some (some 0x0005#16, ⟨true, 0x23456789ABCDEF05#64, 0x05#8⟩) := by decide

/-- T3's decode, the first byte: the INPUT enters the chaining word. -/
theorem test_byte_decode : answer CoreState.chan1 (.byte .dec 0xB8#8) (opened placeholderState) =
    some (some 0x0032#16, ⟨true, 0x23456789ABCDEFB8#64, 0x32#8⟩) := by decide +kernel

/-- R112. -/
theorem test_end : answer CoreState.chan1 (.endMsg .dec) (opened feistelState) =
    some (some 0x0000#16, ⟨false, 0#64, 0#8⟩) := by decide

/-- P4. -/
theorem test_end_idle : answer CoreState.errs (.endMsg .dec) feistelState = some (some 0x7000#16, 0x40#8) := by
  decide

/-- P2: `STATUS` with both channels active. -/
theorem test_rdst_status : answer CoreState.errs (.rdst .status) (opened feistelState) = some (some 0x00F9#16, 0x00#8) := by
  decide

/-- R135's worked example. -/
theorem test_reset : answer CoreState.statusView .reset (opened feistelState) = some (some 0x0000#16, 0x00#8) := by
  decide

/-- V7.3: an illegal word in `FAULT` is `E_ILLEGAL`. -/
theorem test_step_illegal :
    (match step { faulted with pending := [0x8000#16] } with
      | .next t => some (t.responses, t.core.errs, t.pending)
      | _ => none) = some ([0x1000#16], 0x09#8, []) := by decide

/-- The host's question: the instruction runs as the first after reset. -/
theorem test_withFetchWord :
    (match step (State.reset.withFetchWord 16 0x1AA5) with
      | .next t => some (t.core.key[10], t.responses)
      | _ => none) = some (0xA5#8, [0x0000#16]) := by decide

/-! ## The assembler -/

/-- R69's table of source lines. -/
theorem test_assemble_r69 :
    assemble ["NOP", "LDK 10, 0xA5", "LDIV 7, 0xEF", "INIT 2", "START 0", "START 1", "BYTE 0, 0x32", "BYTE 1, 0x3F",
      "END 1", "RDST 1", "RESET"] =
      some [0x0000#16, 0x1AA5#16, 0x27EF#16, 0x3002#16, 0x4000#16, 0x4100#16, 0x5032#16, 0x513F#16, 0x6100#16, 0x7100#16,
        0xF000#16] := by decide +kernel

/-- R69: names, blanks, comments; R70: one pseudo-instruction. -/
theorem test_assemble : assemble ["  INIT FEISTEL ; build", "", "RDST DOUT1", "ENCODE 0x32, 51", "; end"] =
    some [0x3002#16, 0x7300#16, 0x4000#16, 0x5032#16, 0x5033#16, 0x6000#16] := by decide

/-- An operand out of range is no line. -/
theorem test_assemble_range : assemble ["LDIV 8, 0"] = none := by decide

/-! ## Witnesses: for each obligation with hypotheses, states and operands that meet them all -/

/-! ### States that meet the invariant -/

theorem test_reset_meets_invariant : Inv defaultParams State.reset.core where
  ready_complete := by decide
  ready_variant := by decide
  feistel_schedule := fun h => absurd h (by decide)
  unready_channels := fun _ => ⟨rfl, rfl⟩
  unready_schedule := fun _ => rfl
  idle_chain := fun ch _ => by cases ch <;> rfl
  errs_top := rfl
  fault_len := by decide
  unready_variant := fun _ => rfl
  placeholder_schedule := by decide
  unloaded_zero := by decide

/-- A `FEISTEL` session, both channels in a message. -/
theorem test_feistel_meets_invariant : Inv defaultParams (opened feistelState).core where
  ready_complete := fun _ => ⟨rfl, rfl⟩
  ready_variant := fun _ => .inr rfl
  feistel_schedule := fun _ _ => rfl
  unready_channels := fun h => absurd rfl h
  unready_schedule := fun h => absurd rfl h
  idle_chain := fun ch h => by cases ch <;> exact absurd h (by decide)
  errs_top := rfl
  fault_len := by decide
  unready_variant := fun h => absurd rfl h
  placeholder_schedule := by decide
  unloaded_zero := by decide

/-- A `PLACEHOLDER` session, both channels idle. -/
theorem test_placeholder_meets_invariant : Inv defaultParams placeholderState.core where
  ready_complete := fun _ => ⟨rfl, rfl⟩
  ready_variant := fun _ => .inl rfl
  feistel_schedule := fun _ h => absurd h (by decide)
  unready_channels := fun h => absurd rfl h
  unready_schedule := fun h => absurd rfl h
  idle_chain := fun ch _ => by cases ch <;> rfl
  errs_top := rfl
  fault_len := by decide
  unready_variant := fun h => absurd rfl h
  placeholder_schedule := fun _ => rfl
  unloaded_zero := by decide

theorem test_faulted_meets_invariant : Inv defaultParams faulted.core where
  ready_complete := by decide
  ready_variant := by decide
  feistel_schedule := fun h => absurd h (by decide)
  unready_channels := fun _ => ⟨rfl, rfl⟩
  unready_schedule := fun _ => rfl
  idle_chain := fun ch _ => by cases ch <;> rfl
  errs_top := rfl
  fault_len := fun _ => rfl
  unready_variant := fun _ => rfl
  placeholder_schedule := by decide
  unloaded_zero := by decide

/-! ### Encoding and the step -/

/-- EncodeOfDecodeIsTheWord, DecoderAgreesWithOpcodeMap: the last word of `LDIV`'s row. -/
theorem test_witness_decode : decode 0x27FF#16 = .command (.ldiv 7 0xFF#8) ∧
    ⟨.LDIV, 0x2000#16, 0xF800#16⟩ ∈ opcodeMap ∧ (⟨.LDIV, 0x2000#16, 0xF800#16⟩ : OpcodeRow).selects 0x27FF#16 = true := by
  decide

/-- IllegalWordsAreRefused, its step clause, in `FAULT`. -/
theorem test_witness_illegal : ({ faulted with pending := [0x8000#16, 0x0000#16] } : State).pending = [0x8000#16, 0x0000#16] ∧
    decode 0x8000#16 = .illegal .unassignedOpcode := by decide

/-- StepRunsTheDecodedCommand. -/
theorem test_witness_step : ({ State.reset with pending := [0x27EF#16] } : State).pending = [0x27EF#16] ∧
    decode 0x27EF#16 = .command (.ldiv 7 0xEF#8) := by decide

/-- CoreWaitsForACommand. -/
theorem test_witness_waits : State.reset.pending = [] := rfl

/-! ### The commands' clauses -/

/-- The clauses in phase `FAULT`: NopDoesNothing, LdkLoadsOneKeyByte, LdivLoadsOneIvByte, InitConstructsTheSession,
StartOpensAMessageAtTheIv, ByteProcessesOneByte, EndClosesTheMessage. -/
theorem test_witness_fault : faulted.core.phase = .fault := rfl

/-- NopDoesNothing's second clause, the `UNCONF` clauses of the same statements, and RdstReadsWithoutSideEffect's clause
with the invariant (`test_reset_meets_invariant`). -/
theorem test_witness_unconf : State.reset.core.phase = .unconf ∧ State.reset.core.phase ≠ .fault ∧
    State.reset.core.phase ≠ .ready := by decide

/-- InitConstructsTheSession's clauses in `UNCONF`: incomplete by one key byte only, by one IV byte only, complete; the
last is InitHoldsForEveryParameterChoice too. -/
theorem test_witness_init :
    ({ loaded.core with kmask := 0x7FFF#16 } : CoreState).kmask ≠ 0xFFFF#16 ∧
    ({ loaded.core with ivmask := 0xFE#8 } : CoreState).ivmask ≠ 0xFF#8 ∧
    loaded.core.phase = .unconf ∧ loaded.core.kmask = 0xFFFF#16 ∧ loaded.core.ivmask = 0xFF#8 := by decide

/-- LdivLoadsOneIvByte's clause on illegal indices, both ends of its range. -/
theorem test_witness_ldiv_range : 0x2800#16 ≤ 0x2800#16 ∧ 0x2FFF#16 ≤ 0x2FFF#16 ∧
    decode 0x2800#16 = .illegal .reservedBits ∧ decode 0x2FFF#16 = .illegal .reservedBits := by decide

/-- The `READY` clauses: a load or `INIT`, an idle channel (StartOpensAMessageAtTheIv, MessagesKeepTheirLength). -/
theorem test_witness_ready_idle : feistelState.core.phase = .ready ∧ feistelState.core.chan0.active = false ∧
    feistelState.core.chan1.active = false ∧ (feistelState.core.chan .enc).active = false := by decide

/-- The `READY` clauses with a channel in a message, for both variants (ByteProcessesOneByte, EndClosesTheMessage). -/
theorem test_witness_ready_active :
    ((opened feistelState).core.phase = .ready ∧ (opened feistelState).core.chan0.active = true ∧
      (opened feistelState).core.chan1.active = true ∧ (opened feistelState).core.var = .feistel) ∧
    ((opened placeholderState).core.phase = .ready ∧ (opened placeholderState).core.chan0.active = true ∧
      (opened placeholderState).core.chan1.active = true ∧ (opened placeholderState).core.var = .placeholder) := by decide

/-- ByteStopsOnlyWithoutABlockFunction, both clauses (the second with `test_feistel_meets_invariant`). -/
theorem test_witness_byte_stop :
    exec (.byte .enc 0x00#8) { opened feistelState with core := { (opened feistelState).core with var := .ref } } =
      .fault .noBlockFunction ∧ (opened feistelState).core.phase = .ready := ⟨rfl, rfl⟩

/-! ### Refusals, responses, flags -/

/-- RefusalsArePrecise, SecretsAreNotReadable's first hypotheses: a refused and a performed command. -/
theorem test_witness_exec :
    (∃ t, exec (.start .enc) State.reset = .next t ∧ t.responses = [0x3000#16]) ∧
    (∃ t, exec (.ldk 15 0x01#8) State.reset = .next t ∧ t.core.key ≠ State.reset.core.key) :=
  ⟨⟨_, rfl, rfl⟩, ⟨_, rfl, by decide⟩⟩

/-- FirstFailingCheckDecidesTheStatus, OneResponseOfTheRightShape, ErrsIsSticky, EachRefusalHasItsCause: a step that
answers, with `ERRS` bits already set, for a refused command, an illegal word and a performed one. -/
theorem test_witness_answering_step :
    (∃ t, step { faulted with pending := [0x0000#16] } = .next t ∧ t.responses = [0x2000#16] ∧ t.core.errs = 0x0A#8) ∧
    (∃ t, step { faulted with pending := [0xFFFF#16] } = .next t ∧ t.responses = [0x1000#16] ∧ t.core.errs = 0x09#8) ∧
    (∃ t, step { faulted with pending := [0x7100#16] } = .next t ∧ t.responses = [0x0008#16] ∧ t.core.errs = 0x08#8) :=
  ⟨⟨_, rfl, rfl, rfl⟩, ⟨_, rfl, rfl, rfl⟩, ⟨_, rfl, rfl, rfl⟩⟩

/-- EachRefusalHasItsCause: codes 3 to 7, each at its cause (codes 1 and 2 stand above). -/
theorem test_witness_codes :
    (answer CoreState.errs (.init .feistel) feistelState = some (some 0x3000#16, 0x04#8)) ∧
    (answer CoreState.errs (.init .placeholder) State.reset = some (some 0x4000#16, 0x08#8)) ∧
    (answer CoreState.errs (.init .reserved) State.reset = some (some 0x5000#16, 0x10#8)) ∧
    (answer CoreState.errs (.start .dec) (opened feistelState) = some (some 0x6000#16, 0x20#8)) ∧
    (answer CoreState.errs (.byte .dec 0x00#8) feistelState = some (some 0x7000#16, 0x40#8)) := by decide

/-- ErrsIsSticky: the words above are not `RESET`. -/
theorem test_witness_not_reset : ¬ isReset 0x0000#16 ∧ ¬ isReset 0xFFFF#16 ∧ ¬ isReset 0x7100#16 := by
  unfold isReset; decide

/-! ### Invariants and whole-machine rules -/

/-- EveryStepKeepsTheInvariant (with `test_feistel_meets_invariant`, whose core this is): a step that answers. -/
theorem test_witness_inv_step : ∃ t, step { opened feistelState with pending := [0x6000#16] } = .next t ∧
    t.core.chan0.active = false := ⟨_, rfl, rfl⟩

/-- InvariantHoldsForEveryParameterChoice at other parameters than the defaults. -/
theorem test_witness_other_params : ∃ p : Params, p.ks p.rc key1 ≠ defaultParams.ks defaultParams.rc key1 ∧
    ∃ t, execWith p (.init .feistel) loaded = .next t ∧ t.core.phase = .ready :=
  ⟨⟨rcDefault, fun _ _ => Vector.replicate 32 0#32⟩, by decide, _, rfl, rfl⟩

/-- ReachableStatesMeetTheInvariant, NoRunStops: a state reached by one step from reset. -/
theorem test_witness_reachable : ∃ s, Reachable s ∧ s.core.kmask = 0x0400#16 := ⟨_, ⟨[0x1AA5#16], 1, rfl⟩, rfl⟩

/-- SessionIsImmutable: one step of a `READY` core, its word not `RESET`. -/
theorem test_witness_immutable : placeholderState.core.phase = .ready ∧ (∀ w ∈ [0x10FF#16], ¬ isReset w) ∧
    step { placeholderState with pending := [0x10FF#16] } = .next (refuse .phase placeholderState) ∧
    Sys2Proof.core.run 1 { placeholderState with pending := [0x10FF#16] } = .next (refuse .phase placeholderState) :=
  ⟨rfl, List.forall_mem_singleton.mpr (by unfold isReset; decide), rfl, run_of_step 0 rfl⟩

/-- OnlyInitAndResetMoveThePhase: each of its three moves. -/
theorem test_witness_phase_moves :
    (∃ t, step { faulted with pending := [0xF000#16] } = .next t ∧ t.core.phase ≠ .fault) ∧
    (∃ t, step { loaded with pending := [0x3001#16] } = .next t ∧ t.core.phase ≠ .unconf) ∧
    (∃ t, step { State.reset with pending := [0x3001#16] } = .next t ∧ t.core.phase ≠ .unconf) :=
  ⟨⟨_, rfl, by decide⟩, ⟨_, rfl, by decide⟩, ⟨_, rfl, by decide⟩⟩

/-- OnlyOwnersWriteAField: for each clause a command that answers and changes the field. -/
theorem test_witness_owners :
    (∃ t, exec (.ldk 15 0x01#8) State.reset = .next t ∧ t.core.key ≠ State.reset.core.key) ∧
    (∃ t, exec (.ldiv 7 0x01#8) State.reset = .next t ∧ t.core.ivmask ≠ State.reset.core.ivmask) ∧
    (∃ t, exec (.init .feistel) loaded = .next t ∧ t.core.var ≠ loaded.core.var ∧ t.core.rk ≠ loaded.core.rk) ∧
    (∃ t, exec (.start .dec) placeholderState = .next t ∧ t.core.chan1.active ≠ placeholderState.core.chan1.active) ∧
    (∃ t, exec (.byte .dec 0xB8#8) (opened placeholderState) = .next t ∧
      t.core.chan1.chain ≠ (opened placeholderState).core.chan1.chain ∧ t.core.chan1.dout ≠ 0#8) ∧
    (∃ t, exec (.start .enc) State.reset = .next t ∧ t.core.errs ≠ State.reset.core.errs) :=
  ⟨⟨_, rfl, by decide⟩, ⟨_, rfl, by decide⟩, ⟨_, rfl, by decide, by decide⟩, ⟨_, rfl, by decide⟩,
    ⟨_, rfl, by decide +kernel, by decide +kernel⟩, ⟨_, rfl, by decide⟩⟩

/-- The session of `feistelState` with another key, IV, schedule and chaining words. -/
def otherSecrets : State :=
  { opened feistelState with core :=
    { (opened feistelState).core with key := keyZ, iv := Vector.replicate 8 0#8, rk := keySchedule rcDefault keyZ,
                                      chan0 := ⟨true, 0#64, 0#8⟩ } }

/-- SecretsAreNotReadable: two states with equal views, equal masks and different secrets, and a command that answers. -/
theorem test_witness_secrets : readable (opened feistelState).core = readable otherSecrets.core ∧
    (opened feistelState).core.key ≠ otherSecrets.core.key ∧
    (opened feistelState).core.kmask = otherSecrets.core.kmask ∧ (opened feistelState).core.ivmask = otherSecrets.core.ivmask ∧
    (∃ t, exec (.endMsg .enc) (opened feistelState) = .next t) ∧ (∃ t, exec (.endMsg .enc) otherSecrets = .next t) :=
  ⟨by decide, by decide, rfl, rfl, ⟨_, rfl⟩, ⟨_, rfl⟩⟩

/-- ErrsIsSticky's last clause: a command that answers in two states that differ in `ERRS` only. -/
theorem test_witness_errs_only : (∃ t, exec .nop State.reset = .next t) ∧
    ∃ t, exec .nop { State.reset with core := { State.reset.core with errs := 0x7F#8 } } = .next t := ⟨⟨_, rfl⟩, ⟨_, rfl⟩⟩

/-- WordsAreBigEndian's clause about R42's key. -/
theorem test_witness_key1 : ∀ i : Fin 16, key1[i] = BitVec.ofNat 8 i.val := by decide

/-- ReadsAndLoadsRepeat's second clause. -/
theorem test_witness_load_twice : State.reset.core.phase = .unconf ∧ (∃ t, exec (.ldiv 0 0x01#8) State.reset = .next t) ∧
    ∃ u, execAll [.ldiv 0 0x01#8, .ldiv 0 0x01#8] State.reset = .next u := ⟨rfl, ⟨_, rfl⟩, ⟨_, rfl⟩⟩

/-! ### Channels and messages -/

/-- MessageCommandsKeepToTheirChannel: two states with one session and the same channel 0, but another channel 1. -/
theorem test_witness_channels :
    channelOfCommand (.endMsg .enc) = some .enc ∧ Channel.dec ≠ .enc ∧
    sessionOf (opened feistelState).core =
      sessionOf { (opened feistelState).core with chan1 := ⟨false, 0#64, 0x07#8⟩, errs := 0x01#8 } ∧
    (∃ t, exec (.endMsg .enc) (opened feistelState) = .next t) ∧
    (∃ t, exec (.endMsg .enc) { opened feistelState with core :=
      { (opened feistelState).core with chan1 := ⟨false, 0#64, 0x07#8⟩, errs := 0x01#8 } } = .next t) :=
  ⟨rfl, by decide, rfl, ⟨_, rfl⟩, ⟨_, rfl⟩⟩

/-- ChannelsDoNotInterfere (with `test_feistel_meets_invariant`): an interleaved stream, and channel 0's part of it. -/
theorem test_witness_streams :
    (∀ i ∈ [Instr.byte .enc 0x48#8, .endMsg .dec, .nop, .rdst .errs], isStreamCommand i = true) ∧
    streamOf .enc [.byte .enc 0x48#8, .endMsg .dec, .nop, .rdst .errs] = [.byte .enc 0x48#8, .nop, .rdst .errs] := by decide

/-- MessageCommandsComputeRun, ChainIsASlidingWindow and DecodeInvertsEncode (with `test_placeholder_meets_invariant`): an idle channel, two
channels, a block function, equal sessions. -/
theorem test_witness_message : placeholderState.core.phase = .ready ∧ (placeholderState.core.chan .dec).active = false ∧
    placeholderState.core.blockFn = some (fun x => placeholderBlock x (k64 key1)) ∧ Channel.enc ≠ .dec ∧
    sessionOf placeholderState.core = sessionOf (opened placeholderState).core :=
  ⟨rfl, rfl, rfl, by decide, rfl⟩

/-- EqualPrefixesLeakEqualKeystream: T5's messages up to position 4, which differ at 3, and the positions 3 of both. -/
theorem test_witness_prefixes :
    ([0x32#8, 0x33#8, 0x2E#8, 0x35#8, 0x20#8] : List Byte).take 3 = ([0x32#8, 0x33#8, 0x2E#8, 0x37#8, 0x20#8] : List Byte).take 3 ∧
    ([0x32#8, 0x33#8, 0x2E#8, 0x35#8, 0x20#8] : List Byte)[3]? = some 0x35#8 ∧
    ([0x32#8, 0x33#8, 0x2E#8, 0x37#8, 0x20#8] : List Byte)[3]? = some 0x37#8 ∧
    (∃ o, (runBytes id .enc 0#64 [0x32#8, 0x33#8, 0x2E#8, 0x35#8, 0x20#8])[3]? = some o) ∧
    (∃ o, (runBytes id .enc 0#64 [0x32#8, 0x33#8, 0x2E#8, 0x37#8, 0x20#8])[3]? = some o) :=
  ⟨rfl, rfl, rfl, ⟨_, rfl⟩, ⟨_, rfl⟩⟩

/-- DamageEndsAfterNineBytes: the first byte of a message. -/
theorem test_witness_damage : ([0x05#8, 0x36#8] : List Byte)[0]? = some 0x05#8 := rfl

/-- SetupBuildsAReadySession's two variants; KeystreamDependsOnHalfTheChain: two chaining words with equal upper halves and
schedules that differ in an odd key only. -/
theorem test_witness_half_chain :
    (0x0123456789ABCDEF#64).extractLsb' 32 32 = (0x0123456700000000#64).extractLsb' 32 32 ∧
    (∀ t : Fin 16, (keySchedule rcDefault keyZ)[2 * t.val]'(by omega) =
      ((keySchedule rcDefault keyZ).set 1 0xFFFFFFFF#32)[2 * t.val]'(by omega)) ∧
    (keySchedule rcDefault keyZ)[1] ≠ ((keySchedule rcDefault keyZ).set 1 0xFFFFFFFF#32)[1] := by decide +kernel

end Sys2Proof.Tests
end

section
/-! The state's read-only views and the sticky flag set (10_state.md R27, R28, R30, R32): the bits of `STATUS` and what
they determine, the code R159's order gives, and what a command does to `ERRS` and to what the host can read. -/

namespace Sys2Proof.Proofs

open Sys2Proof.Machine Sys2Proof.Safety

/-! ### The `STATUS` view (R28) -/

section statusView

variable (c : CoreState)

theorem statusView_getLsbD (k : Nat) : c.statusView.getLsbD k =
    if k < 2 then c.phase.toBits.getLsbD k
    else if k < 4 then c.var.toBits.getLsbD (k - 2)
    else [c.chan0.active, c.chan1.active, c.kfull, c.ivfull].getD (k - 4) false := by
  unfold CoreState.statusView
  iterate 5 rw [BitVec.getLsbD_append]
  rcases k with _ | _ | _ | _ | _ | _ | _ | _ | k <;> simp

theorem statusView_phase : c.statusView.extractLsb' 0 2 = c.phase.toBits := by
  refine BitVec.eq_of_getLsbD_eq fun k hk => ?_
  simp [statusView_getLsbD, hk]

theorem statusView_var : c.statusView.extractLsb' 2 2 = c.var.toBits := by
  refine BitVec.eq_of_getLsbD_eq fun k hk => ?_
  have hk4 : 2 + k < 4 := by omega
  have hk2 : ¬ 2 + k < 2 := by omega
  simp [statusView_getLsbD, -Nat.not_lt, hk, hk4, hk2]

theorem statusView_active0 : c.statusView.getLsbD 4 = c.chan0.active := statusView_getLsbD c 4
theorem statusView_active1 : c.statusView.getLsbD 5 = c.chan1.active := statusView_getLsbD c 5
theorem statusView_kfull : c.statusView.getLsbD 6 = c.kfull := statusView_getLsbD c 6
theorem statusView_ivfull : c.statusView.getLsbD 7 = c.ivfull := statusView_getLsbD c 7

end statusView

theorem phase_toBits_injective {p q : Phase} (h : p.toBits = q.toBits) : p = q := by
  cases p <;> cases q <;> simp [Phase.toBits] at h ⊢

theorem variant_toBits_injective {v w : Variant} (h : v.toBits = w.toBits) : v = w := by
  simpa using congrArg Variant.ofBits h

/-- `STATUS` is these six things and nothing else. -/
theorem statusView_eq_iff {c d : CoreState} : c.statusView = d.statusView ↔
    c.phase = d.phase ∧ c.var = d.var ∧ c.chan0.active = d.chan0.active ∧ c.chan1.active = d.chan1.active ∧
      c.kfull = d.kfull ∧ c.ivfull = d.ivfull := by
  constructor
  · intro h
    refine ⟨phase_toBits_injective ?_, variant_toBits_injective ?_, ?_, ?_, ?_, ?_⟩
    · rw [← statusView_phase, ← statusView_phase, h]
    · rw [← statusView_var, ← statusView_var, h]
    · rw [← statusView_active0, ← statusView_active0, h]
    · rw [← statusView_active1, ← statusView_active1, h]
    · rw [← statusView_kfull, ← statusView_kfull, h]
    · rw [← statusView_ivfull, ← statusView_ivfull, h]
  · rintro ⟨hphase, hvar, hact0, hact1, hk, hiv⟩
    simp only [CoreState.statusView, hphase, hvar, hact0, hact1, hk, hiv]

/-- `RDST r`, with the register's value as the whole response word. -/
theorem exec_rdst_setWidth (r : StatusReg) (s : State) :
    exec (.rdst r) s = .next { s with responses := s.responses ++ [(s.core.statusReg r).setWidth 16] } := by
  rw [exec_rdst, after, respond, respWord_data]

/-- Settles O27: each bit of the view by `statusView_getLsbD`, each register by `exec_rdst_setWidth`. -/
theorem statusViewBits : Obligations.StatusViewBits := by
  refine ⟨fun c => ⟨?_, statusView_var c, statusView_active0 c, statusView_active1 c, statusView_kfull c,
    statusView_ivfull c⟩, by decide, by decide, by decide, by decide, fun r s => ?_⟩
  · rw [statusView_phase]
    cases c.phase <;> rfl
  · rw [exec_rdst_setWidth]
    cases r <;> rfl

/-! ### Reset (R32) -/

/-- `INIT 1` and `INIT 2` at reset: the key and IV are incomplete. -/
theorem refusal_init_reset {v : Variant} (h : v = .placeholder ∨ v = .feistel) :
    refusal (.init v) State.reset.core = some .len := by
  rcases h with rfl | rfl <;> decide

/-- Settles O11: the record field by field, then `RDST`, the refused `INIT` and `RESET`. -/
theorem resetLeavesEveryFieldZero : Obligations.ResetLeavesEveryFieldZero := by
  refine ⟨rfl, rfl, by decide, rfl, by decide, rfl, by decide, fun c => by cases c <;> rfl, rfl, ?_, ?_,
    fun s => ⟨_, exec_reset, rfl⟩⟩
  · intro r hr
    rw [exec_rdst_setWidth]
    rcases List.mem_pair.mp hr with rfl | rfl <;> rfl
  · intro v hv
    refine ⟨refuse .len State.reset, ?_, rfl, rfl⟩
    rw [exec_eq, refusal_init_reset (List.mem_pair.mp hv), unlessRefused_some]

/-! ### The order of checks (R159) -/

theorem firstFailing_cons (failing : Bool) (code : Nat) (rest : List (Bool × Nat)) :
    firstFailing ((failing, code) :: rest) = if failing then code else firstFailing rest := by
  cases failing <;> rfl

/-- Checks joined with `or`: the code of the first, or else what follows. -/
theorem elim_or_code (r q : Option ErrCode) (n : Nat) :
    (r.or q).elim n ErrCode.code = r.elim (q.elim n ErrCode.code) ErrCode.code := by cases r <;> rfl

/-! Each check as one row of R159's list: its condition, its code, and `n` for the checks after it. -/

section codes

variable (c : CoreState) (n : Nat)

theorem phaseRefusal_none_code :
    (phaseRefusal none c).elim n ErrCode.code = if c.phase = .fault then 2 else n := by
  cases h : c.phase <;> simp [h, ErrCode.code]

theorem phaseRefusal_some_code {q : Phase} (hq : q ≠ .fault) :
    (phaseRefusal (some q) c).elim n ErrCode.code =
      if c.phase = .fault then 2 else if c.phase ≠ q then 3 else n := by
  by_cases hf : c.phase = .fault
  · simp [hf, ErrCode.code]
  · by_cases hp : c.phase = q
    · simp [hp, hq]
    · simp [hf, hp, ErrCode.code]

theorem variantRefusal_code (v : Variant) :
    (variantRefusal v).elim n ErrCode.code = if wrongVariant (.init v) then 5 else n := by cases v <;> rfl

theorem lengthRefusal_code :
    (lengthRefusal c).elim n ErrCode.code = if c.kmask ≠ 0xFFFF#16 ∨ c.ivmask ≠ 0xFF#8 then 4 else n := by
  by_cases hk : c.kmask = 0xFFFF#16 <;> by_cases hiv : c.ivmask = 0xFF#8 <;>
    simp [lengthRefusal, CoreState.kfull, CoreState.ivfull, hk, hiv, ErrCode.code]

theorem busyRefusal_code (x : ChanCtx) :
    (busyRefusal x).elim n ErrCode.code = if x.active then 6 else n := by
  cases h : x.active <;> simp [busyRefusal, h, ErrCode.code]

theorem idleRefusal_code (x : ChanCtx) :
    (idleRefusal x).elim n ErrCode.code = if !x.active then 7 else n := by
  cases h : x.active <;> simp [idleRefusal, h, ErrCode.code]

end codes

/-- The checks of a command decide the code that the list of R159 gives: row by row the same conditions. -/
theorem firstFailing_orderedChecks (i : Instr) (c : CoreState) :
    firstFailing (orderedChecks i c) = (refusal i c).elim 0 ErrCode.code := by
  cases i with
  | rdst r => rfl
  | reset => rfl
  | init v =>
    simp [orderedChecks, firstFailing_cons, firstFailing, inFault, wrongPhase, incomplete, channelBusy, channelIdle,
      refusal, initRefusal, elim_or_code, phaseRefusal_some_code, variantRefusal_code, lengthRefusal_code]
  | _ =>
    simp [orderedChecks, firstFailing_cons, firstFailing, inFault, wrongPhase, wrongVariant, incomplete, channelBusy,
      channelIdle, refusal, elim_or_code, phaseRefusal_none_code, phaseRefusal_some_code, busyRefusal_code,
      idleRefusal_code]

theorem statusCode_command {w : CmdWord} {i : Instr} (hd : decode w = .command i) (c : CoreState) :
    statusCode w c = (refusal i c).elim 0 ErrCode.code := by
  rw [statusCode, hd, ← firstFailing_orderedChecks]

theorem statusCode_illegal {w : CmdWord} {why : IllegalWord} (hd : decode w = .illegal why) (c : CoreState) :
    statusCode w c = ErrCode.illegal.code := by
  rw [statusCode, hd, ErrCode.code]

/-! ### Two runs of one command -/

/-- Two states whose checks decide the same: the command is refused in both with one code, or performed in both. -/
theorem exec_cases_both {i : Instr} {s s' t t' : State} (hr : refusal i s.core = refusal i s'.core)
    (h : exec i s = .next t) (h' : exec i s' = .next t') :
    (∃ e, t = refuse e s ∧ t' = refuse e s') ∨
    ∃ d a d' a', effect defaultParams i s.core = some (d, a) ∧ effect defaultParams i s'.core = some (d', a') ∧
      t = after d a s ∧ t' = after d' a' s' := by
  rcases exec_cases h with ⟨e, he, ht⟩ | ⟨hn, d, a, hd, ht⟩
  · rw [exec_eq, ← hr, he, unlessRefused_some] at h'
    exact .inl ⟨e, ht, (Host.Outcome.next.inj h').symm⟩
  · rcases exec_cases h' with ⟨e', he', -⟩ | ⟨-, d', a', hd', ht'⟩
    · cases hn.symm.trans (hr.trans he')
    · exact .inr ⟨d, a, d', a', hd, hd', ht, ht'⟩

/-! ### `ERRS` (R27) -/

/-- Only `RESET` writes `ERRS` when it is performed. -/
theorem effect_errs {p : Params} {i : Instr} {c d : CoreState} {data : Byte} (hi : i ≠ .reset)
    (h : effect p i c = some (d, data)) : d.errs = c.errs := by
  cases i with
  | reset => exact absurd rfl hi
  | byte ch b =>
    obtain ⟨blk, -, hd⟩ := Option.map_eq_some_iff.mp h
    rw [← (Prod.mk.inj hd).1, setChan_errs]
  | _ =>
    obtain ⟨rfl, -⟩ := Prod.mk.inj (Option.some.inj h)
    simp

/-- A step with a word other than `RESET` is performed and leaves `ERRS` alone, or is refused with one code and sets its
bit. -/
theorem step_errs {s t : State} {w : CmdWord} {rest : List CmdWord} (hp : s.pending = w :: rest) (hw : ¬ isReset w)
    (h : step s = .next t) :
    (statusCode w s.core = 0 ∧ t.core.errs = s.core.errs) ∨
    ∃ e : ErrCode, statusCode w s.core = e.code ∧ t.core.errs = raised s.core.errs e := by
  cases hd : decode w with
  | illegal why =>
    rw [step_illegal hp hd] at h
    exact .inr ⟨.illegal, statusCode_illegal hd s.core, by rw [← Host.Outcome.next.inj h]; rfl⟩
  | command i =>
    rw [step_command hp hd] at h
    rcases exec_cases h with ⟨e, hr, rfl⟩ | ⟨hr, core, data, he, rfl⟩
    · exact .inr ⟨e, by rw [statusCode_command hd, hr, Option.elim_some], rfl⟩
    · refine .inl ⟨by rw [statusCode_command hd, hr, Option.elim_none], effect_errs ?_ he⟩
      rintro rfl
      exact hw hd

/-- The core with another `ERRS`. -/
def withErrs (c : CoreState) (e : BitVec 8) : CoreState := { c with errs := e }

/-- No check reads `ERRS`. -/
theorem refusal_withErrs (i : Instr) (c : CoreState) (e : BitVec 8) : refusal i (withErrs c e) = refusal i c := by
  cases i with
  | start ch => cases ch <;> rfl
  | byte ch b => cases ch <;> rfl
  | endMsg ch => cases ch <;> rfl
  | _ => rfl

@[simp] theorem withErrs_blockFn (c : CoreState) (e : BitVec 8) : (withErrs c e).blockFn = c.blockFn := rfl

/-- No effect reads `ERRS` into another field of the core. -/
theorem effect_withErrs_core (p : Params) (i : Instr) (c : CoreState) (e : BitVec 8) :
    (effect p i (withErrs c e)).map (fun d => withErrs d.1 0#8) = (effect p i c).map (fun d => withErrs d.1 0#8) := by
  cases i with
  | start ch => cases ch <;> rfl
  | byte ch b =>
    simp only [effect, withErrs_blockFn]
    cases c.blockFn <;> cases ch <;> rfl
  | endMsg ch => cases ch <;> rfl
  | _ => rfl

/-- `RDST 1` is the one command whose data byte depends on `ERRS`. -/
theorem effect_withErrs_data (p : Params) {i : Instr} (hi : i ≠ .rdst .errs) (c : CoreState) (e : BitVec 8) :
    (effect p i (withErrs c e)).map Prod.snd = (effect p i c).map Prod.snd := by
  cases i with
  | rdst r =>
    cases r with
    | errs => exact absurd rfl hi
    | _ => rfl
  | byte ch b =>
    simp only [effect, withErrs_blockFn]
    cases c.blockFn <;> cases ch <;> rfl
  | _ => rfl

/-- Two states that differ in `ERRS` only answer a command alike, in states that differ in `ERRS` only. -/
theorem exec_withErrs {i : Instr} {s t t' : State} {e : BitVec 8} (h : exec i s = .next t)
    (h' : exec i { s with core := withErrs s.core e } = .next t') :
    withErrs t.core 0#8 = withErrs t'.core 0#8 ∧ (i ≠ .rdst .errs → t.responses = t'.responses) := by
  rcases exec_cases_both (s' := { s with core := withErrs s.core e }) (refusal_withErrs i s.core e).symm h h' with
    ⟨x, rfl, rfl⟩ | ⟨d, a, d', a', hd, hd', rfl, rfl⟩
  · exact ⟨rfl, fun _ => rfl⟩
  · have hcore := effect_withErrs_core defaultParams i s.core e
    rw [hd, hd'] at hcore
    refine ⟨(Option.some.inj hcore).symm, fun hi => ?_⟩
    have hdata := effect_withErrs_data defaultParams hi s.core e
    rw [hd, hd'] at hdata
    obtain rfl : a' = a := Option.some.inj hdata
    rfl

/-- Settles O26: `step_errs` for the bits, `exec_withErrs` for what `ERRS` decides. -/
theorem errsIsSticky : Obligations.ErrsIsSticky := by
  refine ⟨fun s t w rest hp hw h => ?_, fun s => exec_rdst_setWidth .errs s, fun i s t t' e => exec_withErrs⟩
  rcases step_errs hp hw h with ⟨hcode, herrs⟩ | ⟨e, hcode, herrs⟩
  · rw [herrs]
    exact ⟨fun k hk => hk, fun _ => rfl, fun hne => absurd hcode hne, id⟩
  · have hpos := e.code_range.1
    rw [hcode, herrs]
    refine ⟨fun k hk => ?_, fun h0 => by omega, fun _ => rfl, fun h7 => ?_⟩
    · rw [raised_getLsbD, hk, Bool.true_or]
    · rw [raised_getLsbD, h7, e.bit_top, Bool.or_false]

/-! ### Secrets (R30) -/

theorem respStatus_respWord (status : BitVec 4) (data : Byte) : respStatus (respWord status data) = status := by
  refine BitVec.eq_of_getLsbD_eq fun k hk => ?_
  have h8 : ¬ 12 + k < 8 := by omega
  have h4 : ¬ 12 + k - 8 < 4 := by omega
  have hk' : 12 + k - 8 - 4 = k := by omega
  rw [respStatus, respWord, BitVec.getLsbD_extractLsb', BitVec.getLsbD_append, BitVec.getLsbD_append, if_neg h8,
    if_neg h4, hk', decide_eq_true hk, Bool.true_and]

theorem readable_eq_iff {c d : CoreState} : readable c = readable d ↔
    c.statusView = d.statusView ∧ c.errs = d.errs ∧ ∀ ch, (c.chan ch).dout = (d.chan ch).dout := by
  simp only [readable, Prod.mk.injEq]
  refine and_congr_right' (and_congr_right' ⟨fun ⟨h0, h1⟩ ch => ?_, fun h => ⟨h .enc, h .dec⟩⟩)
  cases ch
  · exact h0
  · exact h1

theorem active_eq_of_statusView {c d : CoreState} (h : c.statusView = d.statusView) (ch : Channel) :
    (c.chan ch).active = (d.chan ch).active := by
  obtain ⟨-, -, h0, h1, -, -⟩ := statusView_eq_iff.mp h
  cases ch
  · exact h0
  · exact h1

/-- Every check is decided by the `STATUS` view. -/
theorem refusal_eq_of_statusView {c d : CoreState} (i : Instr) (h : c.statusView = d.statusView) :
    refusal i c = refusal i d := by
  obtain ⟨hphase, -, -, -, hk, hiv⟩ := statusView_eq_iff.mp h
  have hact := active_eq_of_statusView h
  cases i <;>
    simp only [refusal, initRefusal, phaseRefusal, lengthRefusal, busyRefusal, idleRefusal, hphase, hk, hiv, hact]

theorem statusReg_eq_of_readable {c d : CoreState} (h : readable c = readable d) (r : StatusReg) :
    c.statusReg r = d.statusReg r := by
  obtain ⟨hstatus, herrs, hdout⟩ := readable_eq_iff.mp h
  cases r with
  | status => exact hstatus
  | errs => exact herrs
  | dout0 => exact hdout .enc
  | dout1 => exact hdout .dec

/-- The data byte of every command but `BYTE` is decided by what the host can read. -/
theorem effect_data_of_readable {p : Params} {i : Instr} {c d c' d' : CoreState} {a a' : Byte}
    (hi : ∀ ch b, i ≠ .byte ch b) (h : readable c = readable c') (he : effect p i c = some (d, a))
    (he' : effect p i c' = some (d', a')) : a = a' := by
  cases i with
  | byte ch b => exact absurd rfl (hi ch b)
  | rdst r =>
    rw [← (Prod.mk.inj (Option.some.inj he)).2, ← (Prod.mk.inj (Option.some.inj he')).2, statusReg_eq_of_readable h]
  | _ => rw [← (Prod.mk.inj (Option.some.inj he)).2, ← (Prod.mk.inj (Option.some.inj he')).2]

/-- What `STATUS`, `ERRS` and the masks say of a core. No key, IV or round key is in it, no chaining word and no `DOUT`. -/
structure Control where
  phase : Phase
  var : Variant
  kmask : BitVec 16
  ivmask : BitVec 8
  active : Channel → Bool
  errs : BitVec 8

def controlOf (c : CoreState) : Control := ⟨c.phase, c.var, c.kmask, c.ivmask, fun ch => (c.chan ch).active, c.errs⟩

theorem controlOf_eq_iff {c d : CoreState} : controlOf c = controlOf d ↔
    c.kmask = d.kmask ∧ c.ivmask = d.ivmask ∧ c.statusView = d.statusView ∧ c.errs = d.errs := by
  simp only [controlOf, Control.mk.injEq]
  constructor
  · rintro ⟨hphase, hvar, hk, hiv, hact, herrs⟩
    refine ⟨hk, hiv, statusView_eq_iff.mpr ⟨hphase, hvar, congrFun hact .enc, congrFun hact .dec, ?_, ?_⟩, herrs⟩
    · rw [CoreState.kfull, hk, CoreState.kfull]
    · rw [CoreState.ivfull, hiv, CoreState.ivfull]
  · rintro ⟨hk, hiv, hstatus, herrs⟩
    obtain ⟨hphase, hvar, -⟩ := statusView_eq_iff.mp hstatus
    exact ⟨hphase, hvar, hk, hiv, funext (active_eq_of_statusView hstatus), herrs⟩

theorem controlOf_setChan (c : CoreState) (ch : Channel) (x : ChanCtx) :
    controlOf (c.setChan ch x) = { controlOf c with active := Function.update (controlOf c).active ch x.active } := by
  have hact : (fun k => ((c.setChan ch x).chan k).active) = Function.update (controlOf c).active ch x.active := by
    funext k
    by_cases hk : k = ch
    · rw [hk, setChan_chan_same, Function.update_self]
    · rw [setChan_chan_other c ch x hk, Function.update_of_ne hk]
      rfl
  simp only [controlOf, setChan_phase, setChan_var, setChan_kmask, setChan_ivmask, setChan_errs] at hact ⊢
  rw [hact]

/-- What each performed command does to the control fields: a function of these fields, so no secret enters them. -/
def controlEffect (i : Instr) (x : Control) : Control :=
  match i with
  | .nop => x
  | .ldk k _ => { x with kmask := x.kmask ||| (1#16 <<< k.val) }
  | .ldiv k _ => { x with ivmask := x.ivmask ||| (1#8 <<< k.val) }
  | .init v => { x with phase := .ready, var := v }
  | .start ch => { x with active := Function.update x.active ch true }
  | .byte _ _ => x
  | .endMsg ch => { x with active := Function.update x.active ch false }
  | .rdst _ => x
  | .reset => controlOf .reset

theorem controlOf_effect {p : Params} {i : Instr} {c d : CoreState} {a : Byte} (h : effect p i c = some (d, a)) :
    controlOf d = controlEffect i (controlOf c) := by
  cases i with
  | byte ch b =>
    obtain ⟨blk, -, hd⟩ := Option.map_eq_some_iff.mp h
    rw [← (Prod.mk.inj hd).1, controlOf_setChan]
    exact congrArg (fun f => { controlOf c with active := f }) (Function.update_eq_self ch (controlOf c).active)
  | start ch => rw [← (Prod.mk.inj (Option.some.inj h)).1, controlOf_setChan, controlEffect]
  | endMsg ch => rw [← (Prod.mk.inj (Option.some.inj h)).1, controlOf_setChan, controlEffect]
  | _ =>
    obtain ⟨rfl, -⟩ := Prod.mk.inj (Option.some.inj h)
    rfl

theorem controlOf_refused (c : CoreState) (e : ErrCode) : controlOf (c.refused e) =
    { controlOf c with errs := raised (controlOf c).errs e,
                       phase := if e = .len then .fault else (controlOf c).phase } := rfl

theorem setChan_dout_of_eq (c : CoreState) {ch : Channel} {x : ChanCtx} (hx : x.dout = (c.chan ch).dout) (k : Channel) :
    ((c.setChan ch x).chan k).dout = (c.chan k).dout := by
  by_cases hk : k = ch
  · rw [hk, setChan_chan_same, hx]
  · rw [setChan_chan_other c ch x hk]

/-- Only `BYTE` and `RESET` write a `DOUT`. -/
theorem effect_dout {p : Params} {i : Instr} {c d : CoreState} {a : Byte} (hi : ∀ ch b, i ≠ .byte ch b)
    (hr : i ≠ .reset) (h : effect p i c = some (d, a)) (k : Channel) : (d.chan k).dout = (c.chan k).dout := by
  cases i with
  | byte ch b => exact absurd rfl (hi ch b)
  | reset => exact absurd rfl hr
  | start ch =>
    obtain ⟨rfl, -⟩ := Prod.mk.inj (Option.some.inj h)
    exact setChan_dout_of_eq c (by rfl) k
  | endMsg ch =>
    obtain ⟨rfl, -⟩ := Prod.mk.inj (Option.some.inj h)
    exact setChan_dout_of_eq c (by rfl) k
  | _ =>
    obtain ⟨rfl, -⟩ := Prod.mk.inj (Option.some.inj h)
    rfl

section twoRuns

variable {i : Instr} {s s' t t' : State}

/-- Equal views before give equal statuses, and equal responses to all but `BYTE`. -/
theorem exec_response_of_readable (hv : readable s.core = readable s'.core) (h : exec i s = .next t)
    (h' : exec i s' = .next t') : ∃ r r' : RespWord, t.responses = s.responses ++ [r] ∧
      t'.responses = s'.responses ++ [r'] ∧ respStatus r = respStatus r' ∧ ((∀ c b, i ≠ .byte c b) → r = r') := by
  have hstatus := (readable_eq_iff.mp hv).1
  rcases exec_cases_both (refusal_eq_of_statusView i hstatus) h h' with
    ⟨e, rfl, rfl⟩ | ⟨d, a, d', a', hd, hd', rfl, rfl⟩
  · exact ⟨_, _, refuse_responses s e, refuse_responses s' e, rfl, fun _ => rfl⟩
  · refine ⟨_, _, after_responses d a s, after_responses d' a' s', ?_, fun hi => ?_⟩
    · rw [respStatus_respWord, respStatus_respWord]
    · rw [effect_data_of_readable hi hv hd hd']

/-- Equal control fields before give equal control fields after. -/
theorem exec_control (hc : controlOf s.core = controlOf s'.core) (h : exec i s = .next t)
    (h' : exec i s' = .next t') : controlOf t.core = controlOf t'.core := by
  obtain ⟨-, -, hstatus, -⟩ := controlOf_eq_iff.mp hc
  rcases exec_cases_both (refusal_eq_of_statusView i hstatus) h h' with
    ⟨e, rfl, rfl⟩ | ⟨d, a, d', a', hd, hd', rfl, rfl⟩
  · rw [refuse_core, refuse_core, controlOf_refused, controlOf_refused, hc]
  · rw [after_core, after_core, controlOf_effect hd, controlOf_effect hd', hc]

/-- Equal views before give equal `DOUT` views after all but `BYTE`. -/
theorem exec_dout (hi : ∀ c b, i ≠ .byte c b) (hv : readable s.core = readable s'.core) (h : exec i s = .next t)
    (h' : exec i s' = .next t') (k : Channel) : (t.core.chan k).dout = (t'.core.chan k).dout := by
  obtain ⟨hstatus, -, hdout⟩ := readable_eq_iff.mp hv
  rcases exec_cases_both (refusal_eq_of_statusView i hstatus) h h' with
    ⟨e, rfl, rfl⟩ | ⟨d, a, d', a', hd, hd', rfl, rfl⟩
  · rw [refuse_core, refuse_core, refused_chan, refused_chan, hdout k]
  · by_cases hr : i = .reset
    · subst hr
      rw [after_core, after_core, ← (Prod.mk.inj (Option.some.inj hd)).1, ← (Prod.mk.inj (Option.some.inj hd')).1]
    · rw [after_core, after_core, effect_dout hi hr hd, effect_dout hi hr hd', hdout k]

end twoRuns

/-- Settles O37: the response by `exec_response_of_readable`, the views after it by `exec_control` and `exec_dout`. -/
theorem secretsAreNotReadable : Obligations.SecretsAreNotReadable := by
  intro i s s' t t' hv h h'
  obtain ⟨r, r', hr, hr', hstatus, hdata⟩ := exec_response_of_readable hv h h'
  refine ⟨r, r', hr, hr', hstatus, hdata, fun hk hiv => ?_⟩
  obtain ⟨hview, herrs, -⟩ := readable_eq_iff.mp hv
  have hc : controlOf s.core = controlOf s'.core := controlOf_eq_iff.mpr ⟨hk, hiv, hview, herrs⟩
  obtain ⟨hk', hiv', hview', herrs'⟩ := controlOf_eq_iff.mp (exec_control hc h h')
  exact ⟨hk', hiv', hview', herrs', fun hi => readable_eq_iff.mpr ⟨hview', herrs', exec_dout hi hv h h'⟩⟩

end Sys2Proof.Proofs
end

section
/-! The byte order of `IVWORD`, the key words and `K64` (20_memory.md R41, R42, R43): words written out byte by byte, most
significant first, are the sums of their bytes at the places of base 256. -/

namespace Sys2Proof.Proofs

open Sys2Proof.Machine

theorem toNat_append_eq_add {m n : Nat} (x : BitVec m) (y : BitVec n) :
    (x ++ y).toNat = x.toNat * 2 ^ n + y.toNat := by
  rw [BitVec.toNat_append, ← Nat.shiftLeft_add_eq_or_of_lt y.isLt, Nat.shiftLeft_eq]

theorem toNat_append_four_bytes (b : Fin 4 → Byte) :
    (b 0 ++ b 1 ++ b 2 ++ b 3).toNat = ∑ i, (b i).toNat * 2 ^ (8 * (3 - i.val)) := by
  simp only [toNat_append_eq_add, Fin.sum_univ_four, Fin.coe_ofNat_eq_mod, Nat.reduceMod, Nat.reduceSub,
    Nat.reduceMul, Nat.reducePow]
  omega

theorem toNat_append_eight_bytes (b : Fin 8 → Byte) :
    (b 0 ++ b 1 ++ b 2 ++ b 3 ++ b 4 ++ b 5 ++ b 6 ++ b 7).toNat = ∑ i, (b i).toNat * 2 ^ (8 * (7 - i.val)) := by
  simp only [toNat_append_eq_add, Fin.sum_univ_eight, Fin.coe_ofNat_eq_mod, Nat.reduceMod, Nat.reduceSub,
    Nat.reduceMul, Nat.reducePow]
  omega

theorem ivWord_toNat (iv : IvBytes) : (ivWord iv).toNat = ∑ i : Fin 8, iv[i].toNat * 2 ^ (8 * (7 - i.val)) :=
  toNat_append_eight_bytes fun i => iv[i]

theorem keyWord_toNat (key : Key) (j : Fin 4) : (keyWord key j).toNat =
    ∑ i : Fin 4, (key[4 * j.val + i.val]'(by omega)).toNat * 2 ^ (8 * (3 - i.val)) :=
  toNat_append_four_bytes fun i => key[4 * j.val + i.val]'(by omega)

/-- The sum runs over `KEY[0..7]`: `K64` does not read `KEY[8..15]`. -/
theorem k64_toNat (key : Key) :
    (k64 key).toNat = ∑ i : Fin 8, (key[i.val]'(by omega)).toNat * 2 ^ (8 * (7 - i.val)) :=
  toNat_append_eight_bytes fun i => key[i.val]'(by omega)

/-- The key of the examples of R42 and R43: `KEY[i] = i`. -/
def countingKey : Key := Vector.ofFn fun i => BitVec.ofNat 8 i.val

theorem eq_countingKey {key : Key} (h : ∀ i : Fin 16, key[i] = BitVec.ofNat 8 i.val) : key = countingKey := by
  refine Vector.ext fun i hi => ?_
  rw [countingKey, Vector.getElem_ofFn]
  exact h ⟨i, hi⟩

/-- Settles O49: a word of appended bytes is their sum by place, four bytes or eight; the examples are evaluated. -/
theorem wordsAreBigEndian : Obligations.WordsAreBigEndian := by
  refine ⟨ivWord_toNat, keyWord_toNat, k64_toNat, by decide, fun key h => ?_⟩
  rw [eq_countingKey h]
  decide

end Sys2Proof.Proofs
end

section
/-! The response word (30_encoding.md R67): the fields of `status[3:0] ‖ 0000 ‖ data[7:0]`, the data byte of each command,
and the one response that a step with a word presented gives. -/

namespace Sys2Proof.Proofs

open Sys2Proof.Machine

/-! ### The fields of a response word -/

theorem respData_respWord (status : BitVec 4) (data : Byte) : respData (respWord status data) = data := by
  refine BitVec.eq_of_getLsbD_eq fun k hk => ?_
  rw [respData, respWord, BitVec.getLsbD_extractLsb', BitVec.getLsbD_append, Nat.zero_add, if_pos hk,
    decide_eq_true hk, Bool.true_and]

theorem respWord_middle (status : BitVec 4) (data : Byte) : (respWord status data).extractLsb' 8 4 = 0#4 := by
  refine BitVec.eq_of_getLsbD_eq fun k hk => ?_
  have h8 : ¬ 8 + k < 8 := by omega
  have hk' : 8 + k - 8 < 4 := by omega
  rw [respWord, BitVec.getLsbD_extractLsb', BitVec.getLsbD_append, BitVec.getLsbD_append, if_neg h8, if_pos hk',
    BitVec.getLsbD_zero, Bool.and_false, BitVec.getLsbD_zero]

theorem errCode_ofNat_toNat (e : ErrCode) : (BitVec.ofNat 4 e.code).toNat = e.code := by cases e <;> rfl

/-! ### The data byte of a performed command -/

section effect

variable {p : Params} {c d : CoreState} {a : Byte}

theorem effect_data_eq_zero {i : Instr} (hb : ∀ ch b, i ≠ .byte ch b) (hr : ∀ x, i ≠ .rdst x)
    (h : effect p i c = some (d, a)) : a = 0#8 := by
  cases i with
  | byte ch b => exact absurd rfl (hb ch b)
  | rdst x => exact absurd rfl (hr x)
  | _ => exact (Prod.mk.inj (Option.some.inj h)).2.symm

theorem effect_byte_data {ch : Channel} {b : Byte} (h : effect p (.byte ch b) c = some (d, a)) :
    a = (d.chan ch).dout := by
  obtain ⟨blk, -, hd⟩ := Option.map_eq_some_iff.mp h
  obtain ⟨rfl, rfl⟩ := Prod.mk.inj hd
  rw [setChan_chan_same]

theorem effect_rdst_data {x : StatusReg} (h : effect p (.rdst x) c = some (d, a)) : a = c.statusReg x :=
  (Prod.mk.inj (Option.some.inj h)).2.symm

end effect

/-! ### A step with a word presented -/

section step

variable {s s' t t' : State} {w : CmdWord} {rest rest' : List CmdWord}

/-- A step with a word presented refuses the word, which is then not an `RDST`, or performs its command. -/
theorem step_presented_cases (hp : s.pending = w :: rest) (h : step s = .next t) :
    (∃ e, (∀ x, decode w ≠ .command (.rdst x)) ∧ t = refuse e { s with pending := rest }) ∨
    ∃ i d a, decode w = .command i ∧ effect defaultParams i s.core = some (d, a) ∧
      t = after d a { s with pending := rest } := by
  cases hd : decode w with
  | illegal why =>
    rw [step_illegal hp hd] at h
    exact .inl ⟨.illegal, nofun, (Host.Outcome.next.inj h).symm⟩
  | command i =>
    rw [step_command hp hd] at h
    rcases exec_cases h with ⟨e, hr, ht⟩ | ⟨-, d, a, he, ht⟩
    · refine .inl ⟨e, fun x hx => ?_, ht⟩
      obtain rfl := Decoded.command.inj hx
      cases hr
    · exact .inr ⟨i, d, a, rfl, he, ht⟩

/-- Two states with the same core and the same word presented: the same response, and the same core after. -/
theorem step_response_eq (hc : s.core = s'.core) (hp : s.pending = w :: rest) (hp' : s'.pending = w :: rest')
    (h : step s = .next t) (h' : step s' = .next t') :
    ∃ r, t.responses = s.responses ++ [r] ∧ t'.responses = s'.responses ++ [r] ∧ t.core = t'.core := by
  cases hd : decode w with
  | illegal why =>
    rw [step_illegal hp hd] at h
    rw [step_illegal hp' hd] at h'
    obtain rfl := Host.Outcome.next.inj h
    obtain rfl := Host.Outcome.next.inj h'
    exact ⟨_, rfl, rfl, congrArg (CoreState.refused · .illegal) hc⟩
  | command i =>
    rw [step_command hp hd] at h
    rw [step_command hp' hd] at h'
    rcases exec_cases_both (s := { s with pending := rest }) (s' := { s' with pending := rest' })
      (congrArg (refusal i) hc) h h' with ⟨e, rfl, rfl⟩ | ⟨d, a, d', a', he, he', rfl, rfl⟩
    · exact ⟨_, rfl, rfl, congrArg (CoreState.refused · e) hc⟩
    · have hda := he.symm.trans ((congrArg (effect defaultParams i) hc).trans he')
      obtain ⟨rfl, rfl⟩ := Prod.mk.inj (Option.some.inj hda)
      exact ⟨_, rfl, rfl, rfl⟩

end step

/-- Settles O25: the shape by `step_presented_cases`, a refusal with its code and no data, a performed command with
status 0 and the data of its effect; the dependence on core and word alone by `step_response_eq`. -/
theorem oneResponseOfTheRightShape : Obligations.OneResponseOfTheRightShape := by
  refine ⟨fun s t w rest hp h => ?_, fun s s' t t' w rest rest' => step_response_eq⟩
  rcases step_presented_cases hp h with ⟨e, hrdst, rfl⟩ | ⟨i, d, a, hd, he, rfl⟩
  · have hcode := errCode_ofNat_toNat e
    have hrange := ErrCode.code_range e
    refine ⟨_, rfl, refuse_responses _ e, ?_, respWord_middle _ _, fun _ => respData_respWord _ _,
      fun _ _ => respData_respWord _ _, fun c b _ hok => ?_, fun x hx => absurd hx (hrdst x)⟩
    · rw [respStatus_respWord, hcode]
      exact hrange.2
    · rw [respStatus_respWord] at hok
      rw [hok] at hcode
      exact absurd hcode.symm (Nat.ne_of_gt hrange.1)
  · have hstatus := respStatus_respWord 0#4 a
    have hdata := respData_respWord 0#4 a
    refine ⟨_, rfl, after_responses d a _, ?_, respWord_middle _ _, fun hne => absurd hstatus hne, fun hb hr => ?_,
      fun c b hw _ => ?_, fun x hw => ?_⟩
    · rw [hstatus]
      decide
    · rw [hdata]
      exact effect_data_eq_zero (fun c b hi => hb c b (hi ▸ hd)) (fun x hi => hr x (hi ▸ hd)) he
    · obtain rfl := Decoded.command.inj (hd.symm.trans hw)
      rw [hdata]
      exact effect_byte_data he
    · obtain rfl := Decoded.command.inj (hd.symm.trans hw)
      rw [hdata]
      exact effect_rdst_data he

end Sys2Proof.Proofs
end

section
/-! Which words are illegal (30_encoding.md R60, R61, R63 to R65): a row of the opcode map selects a word field by field,
so a word is illegal exactly when it does not fit its opcode's format. -/

namespace Sys2Proof.Proofs

open Sys2Proof.Machine

/-! ### A word as its three fields (R60) -/

theorem word_eq_iff {w v : CmdWord} : w = v ↔ CmdFields.ofWord w = CmdFields.ofWord v := by
  refine ⟨congrArg CmdFields.ofWord, fun h => BitVec.eq_of_toNat_eq ?_⟩
  simp only [CmdFields.ofWord, CmdFields.mk.injEq, ← BitVec.toNat_inj, BitVec.extractLsb'_toNat,
    Nat.shiftRight_eq_div_pow] at h
  omega

theorem ofWord_and (w m : CmdWord) : CmdFields.ofWord (w &&& m) =
    ⟨(CmdFields.ofWord w).op &&& (CmdFields.ofWord m).op, (CmdFields.ofWord w).idx &&& (CmdFields.ofWord m).idx,
      (CmdFields.ofWord w).imm &&& (CmdFields.ofWord m).imm⟩ := by
  simp only [CmdFields.ofWord, BitVec.extractLsb'_and]

theorem op_and_allOnes (f : CmdFields) : f.op &&& 0xF#4 = f.op := BitVec.and_allOnes

theorem ofWord_op_toNat (w : CmdWord) : (CmdFields.ofWord w).op.toNat = w.toNat / 0x1000 := by
  simp only [CmdFields.ofWord, BitVec.extractLsb'_toNat, Nat.shiftRight_eq_div_pow]
  omega

/-! ### Rows and formats (R61, R63) -/

/-- Every row fixes the opcode to its pattern's, and to zero every bit that the format of that opcode leaves no operand. -/
theorem opcodeMap_row_fields : ∀ row ∈ opcodeMap, ∃ t, Format.ofOp (CmdFields.ofWord row.pattern).op = some t ∧
    CmdFields.ofWord row.mask = ⟨0xF#4, ~~~t.idxBits, ~~~t.immBits⟩ ∧
    CmdFields.ofWord row.pattern = ⟨(CmdFields.ofWord row.pattern).op, 0#4, 0#8⟩ := by decide

theorem opcodeMap_row_of_format : ∀ op, (Format.ofOp op).isSome = true →
    ∃ row ∈ opcodeMap, (CmdFields.ofWord row.pattern).op = op := by decide

theorem opcodeMap_eq_of_op : ∀ row ∈ opcodeMap, ∀ row' ∈ opcodeMap,
    (CmdFields.ofWord row.pattern).op = (CmdFields.ofWord row'.pattern).op → row = row' := by decide

theorem wellFormed_iff_of_format {f : CmdFields} {t : Format} (h : Format.ofOp f.op = some t) :
    f.wellFormed = true ↔ f.idx &&& ~~~t.idxBits = 0#4 ∧ f.imm &&& ~~~t.immBits = 0#8 := by
  simp [CmdFields.wellFormed, CmdFields.hasRow, CmdFields.idxOk, CmdFields.immOk, h]

/-- A row selects the words of its opcode that fit the format. -/
theorem selects_iff {row : OpcodeRow} (hrow : row ∈ opcodeMap) (w : CmdWord) : row.selects w = true ↔
    (CmdFields.ofWord w).op = (CmdFields.ofWord row.pattern).op ∧ (CmdFields.ofWord w).wellFormed = true := by
  obtain ⟨t, ht, hmask, hpattern⟩ := opcodeMap_row_fields row hrow
  have hfields : row.selects w = true ↔ CmdFields.ofWord (w &&& row.mask) = CmdFields.ofWord row.pattern := by
    rw [OpcodeRow.selects, beq_iff_eq, word_eq_iff]
  rw [hfields, ofWord_and, hmask, hpattern, CmdFields.mk.injEq, op_and_allOnes]
  exact and_congr_right fun h => (wellFormed_iff_of_format (h ▸ ht)).symm

/-- At most one row selects a word: two that do have the word's opcode. -/
theorem row_eq_of_selects {row row' : OpcodeRow} {w : CmdWord} (hrow : row ∈ opcodeMap) (hrow' : row' ∈ opcodeMap)
    (h : row.selects w = true) (h' : row'.selects w = true) : row = row' := by
  refine opcodeMap_eq_of_op row hrow row' hrow' ?_
  rw [← ((selects_iff hrow w).mp h).1, ← ((selects_iff hrow' w).mp h').1]

theorem exists_row_selects_iff (w : CmdWord) :
    (∃ row ∈ opcodeMap, row.selects w = true) ↔ (CmdFields.ofWord w).wellFormed = true := by
  constructor
  · rintro ⟨row, hrow, hsel⟩
    exact ((selects_iff hrow w).mp hsel).2
  · intro hwf
    have hformat : (CmdFields.ofWord w).hasRow = true := by
      rw [CmdFields.wellFormed, Bool.and_eq_true, Bool.and_eq_true] at hwf
      exact hwf.1.1
    obtain ⟨row, hrow, hop⟩ := opcodeMap_row_of_format _ hformat
    exact ⟨row, hrow, (selects_iff hrow w).mpr ⟨hop.symm, hwf⟩⟩

/-! ### The decoder and the opcode map -/

/-- The one test of the decoder that is written by field and not by mask: `LDK`'s. -/
theorem op_eq_one_iff (w : CmdWord) : w.extractLsb' 12 4 = 0x1#4 ↔ w &&& 0xF000#16 = 0x1000#16 := by
  have hmask : CmdFields.ofWord 0xF000#16 = ⟨0xF#4, 0#4, 0#8⟩ := rfl
  have hpattern : CmdFields.ofWord 0x1000#16 = ⟨0x1#4, 0#4, 0#8⟩ := rfl
  rw [word_eq_iff, ofWord_and, hmask, hpattern, op_and_allOnes, CmdFields.mk.injEq]
  simp [CmdFields.ofWord]

/-- The decoder's tests are the rows' selections, in the map's order. -/
theorem decode_illegal_iff_no_row (w : CmdWord) :
    (∃ why, decode w = .illegal why) ↔ ¬ ∃ row ∈ opcodeMap, row.selects w = true := by
  have hfull : w &&& 0xFFFF#16 = w := BitVec.and_allOnes
  simp only [opcodeMap, OpcodeRow.selects, List.exists_mem_cons_iff, beq_iff_eq, hfull, ← op_eq_one_iff]
  unfold decode
  split_ifs <;> simp [*]

/-- A word is illegal exactly when it does not fit its opcode's format. -/
theorem decode_illegal_iff (w : CmdWord) :
    (∃ why, decode w = .illegal why) ↔ ¬ (CmdFields.ofWord w).wellFormed = true := by
  rw [decode_illegal_iff_no_row, exists_row_selects_iff]

/-! ### The four families of illegal words (R64) -/

/-- Each opcode has no format, format `z`, format `kb`, or is one of 0x2 to 0x7. -/
theorem op_families : ∀ op : BitVec 4,
    (0x8 ≤ op.toNat ∧ op.toNat ≤ 0xE ∧ Format.ofOp op = none) ∨
    ((op.toNat = 0x0 ∨ op.toNat = 0xF) ∧ Format.ofOp op = some .z) ∨
    (op.toNat = 0x1 ∧ Format.ofOp op = some .kb) ∨
    (0x2 ≤ op.toNat ∧ op.toNat ≤ 0x7 ∧ (Format.ofOp op).isSome = true) := by decide

theorem not_wellFormed_of_no_format {f : CmdFields} (h : Format.ofOp f.op = none) : ¬ f.wellFormed = true := by
  simp [CmdFields.wellFormed, CmdFields.hasRow, h]

theorem not_wellFormed_iff_of_format {f : CmdFields} (h : (Format.ofOp f.op).isSome = true) :
    ¬ f.wellFormed = true ↔ f.idxOk = false ∨ f.immOk = false := by
  have hrow : f.hasRow = true := h
  rw [CmdFields.wellFormed, hrow, Bool.true_and, Bool.and_eq_true, not_and_or, Bool.not_eq_true, Bool.not_eq_true]

/-- Format `z` has no operand: the opcode is the whole word. -/
theorem wellFormed_z_iff {w v : CmdWord} (hz : Format.ofOp (CmdFields.ofWord w).op = some .z)
    (hv : CmdFields.ofWord v = ⟨(CmdFields.ofWord w).op, 0#4, 0#8⟩) :
    (CmdFields.ofWord w).wellFormed = true ↔ w = v := by
  have hidx : (CmdFields.ofWord w).idx &&& ~~~Format.z.idxBits = (CmdFields.ofWord w).idx := BitVec.and_allOnes
  have himm : (CmdFields.ofWord w).imm &&& ~~~Format.z.immBits = (CmdFields.ofWord w).imm := BitVec.and_allOnes
  rw [wellFormed_iff_of_format hz, hidx, himm, word_eq_iff, hv]
  simp [CmdFields.ofWord]

theorem not_wellFormed_iff_families (w : CmdWord) : ¬ (CmdFields.ofWord w).wellFormed = true ↔
    (0x8 ≤ w.toNat / 0x1000 ∧ w.toNat / 0x1000 ≤ 0xE) ∨ (w.toNat / 0x1000 = 0xF ∧ w ≠ 0xF000#16) ∨
    (w.toNat / 0x1000 = 0x0 ∧ w ≠ 0x0000#16) ∨
    (0x2 ≤ w.toNat / 0x1000 ∧ w.toNat / 0x1000 ≤ 0x7 ∧
      ((CmdFields.ofWord w).idxOk = false ∨ (CmdFields.ofWord w).immOk = false)) := by
  rw [← ofWord_op_toNat]
  rcases op_families (CmdFields.ofWord w).op with ⟨h8, hE, hnone⟩ | ⟨hop, hz⟩ | ⟨hop, hkb⟩ | ⟨h2, h7, hsome⟩
  · exact iff_of_true (not_wellFormed_of_no_format hnone) (.inl ⟨h8, hE⟩)
  · rcases hop with h0 | hF
    · have hop : (CmdFields.ofWord w).op = 0x0#4 := BitVec.eq_of_toNat_eq h0
      rw [wellFormed_z_iff (v := 0x0000#16) hz (by rw [hop]; rfl), h0]
      simp
    · have hop : (CmdFields.ofWord w).op = 0xF#4 := BitVec.eq_of_toNat_eq hF
      rw [wellFormed_z_iff (v := 0xF000#16) hz (by rw [hop]; rfl), hF]
      simp
  · have hwf : (CmdFields.ofWord w).wellFormed = true := by
      simp [wellFormed_iff_of_format hkb, Format.idxBits, Format.immBits]
    refine iff_of_false (fun h => h hwf) ?_
    omega
  · have h8 : ¬ 0x8 ≤ (CmdFields.ofWord w).op.toNat := by omega
    have hF : (CmdFields.ofWord w).op.toNat ≠ 0xF := by omega
    have h0 : (CmdFields.ofWord w).op.toNat ≠ 0x0 := by omega
    rw [not_wellFormed_iff_of_format hsome]
    simp [-not_le, h8, hF, h0, h2, h7]

/-- Settles O6: a word that is not illegal has its one row by `row_eq_of_selects`; the illegal words are the ill-formed ones
(`decode_illegal_iff`), whose families are read off the opcode; the step is `step_illegal`. -/
theorem illegalWordsAreRefused : Obligations.IllegalWordsAreRefused := by
  refine ⟨fun w => ?_, fun w => (decode_illegal_iff w).trans (not_wellFormed_iff_families w),
    fun s w rest why hp hd => ?_, fun w hw => ?_⟩
  · rw [decode_illegal_iff_no_row, or_iff_not_imp_left, not_not]
    rintro ⟨row, hrow, hsel⟩
    exact ⟨row, hrow, hsel, fun row' hrow' hsel' => row_eq_of_selects hrow' hrow hsel' hsel⟩
  · rw [step_illegal hp hd, refuse_eq]
    rfl
  · fin_cases hw <;> exact ⟨_, rfl⟩

end Sys2Proof.Proofs
end

section
/-! The rotation of a half and `G`, bit by bit (40_block_primitive.md R91, R92). -/

namespace Sys2Proof.Proofs

open Sys2Proof.Machine

/-- R91's bit law for every amount below the width. The bit is in the left shift when it does not pass the top, and in the
right shift when it wraps. -/
theorem rotl32_getLsbD_add_mod (a : Half) {n k : Nat} (hn : n < 32) (hk : k < 32) :
    (rotl32 a n).getLsbD ((k + n) % 32) = a.getLsbD k := by
  rw [rotl32, BitVec.getLsbD_or, BitVec.getLsbD_shiftLeft, BitVec.getLsbD_ushiftRight]
  obtain hlt | hge := Nat.lt_or_ge (k + n) 32
  · have hmod : (k + n) % 32 = k + n := Nat.mod_eq_of_lt hlt
    have hright : a.getLsbD (32 - n + (k + n)) = false := BitVec.getLsbD_of_ge _ _ (by omega)
    rw [hmod, hright]
    simp [hlt]
  · have hmod : (k + n) % 32 = k + n - 32 := by omega
    have hleft : k + n - 32 < n := by omega
    have hright : 32 - n + (k + n - 32) = k := by omega
    rw [hmod, hright]
    simp [hleft]

/-- The same law read at the target: bit `k` of the rotation comes from the place `n` below it, which is `32 - n` above. -/
theorem rotl32_getLsbD (a : Half) {n k : Nat} (hn : n < 32) (hk : k < 32) :
    (rotl32 a n).getLsbD k = a.getLsbD ((k + (32 - n)) % 32) := by
  have htarget : ((k + (32 - n)) % 32 + n) % 32 = k := by omega
  rw [← rotl32_getLsbD_add_mod a hn (Nat.mod_lt _ (by decide)), htarget]

/-- R92's bit formula; the places 5 and 1 below `k` are 27 and 31 above it. -/
theorem g_getLsbD (a : Half) {k : Nat} (hk : k < 32) :
    (g a).getLsbD k = (a.getLsbD k ^^ (a.getLsbD ((k + 27) % 32) && a.getLsbD ((k + 31) % 32))) := by
  rw [g, BitVec.getLsbD_xor, BitVec.getLsbD_and, rotl32_getLsbD a (by decide : 5 < 32) hk,
    rotl32_getLsbD a (by decide : 1 < 32) hk]

/-- Settles O48: `rotl32_getLsbD_add_mod` for both amounts, `g_getLsbD` for `G`; the examples are evaluated. -/
theorem rotationAndGBits : Obligations.RotationAndGBits :=
  ⟨fun a _ hk => ⟨rotl32_getLsbD_add_mod a (by decide) hk, rotl32_getLsbD_add_mod a (by decide) hk⟩,
    fun a _ hk => g_getLsbD a hk, by decide⟩

end Sys2Proof.Proofs
end

section
/-! The message commands `START`, `BYTE`, `END` (41_chainer.md R110 to R113): the refusals they share, and what each does
to its channel when it is performed. -/

namespace Sys2Proof.Proofs

open Sys2Proof.Machine Sys2Proof.Safety

/-! ### Refusals -/

/-- A command whose checks fail answers R150's refusal, spelled out as in `refuse_eq`. -/
theorem exec_of_refusal {i : Instr} {s : State} {e : ErrCode} (h : refusal i s.core = some e) :
    exec i s = .next ⟨{ s.core with errs := s.core.errs ||| (1#8 <<< (e.code - 1)),
                                    phase := if e = .len then .fault else s.core.phase },
      s.pending, s.responses ++ [BitVec.ofNat 16 (e.code * 0x1000)]⟩ := by
  rw [exec_eq, h, unlessRefused_some, refuse_eq]

/-- The phase check of a message command decides before the channel's state is looked at (R159). -/
theorem refusal_of_phaseRefusal {i : Instr} {c : Channel} {core : CoreState} {e : ErrCode}
    (hi : channelOfCommand i = some c) (h : phaseRefusal (some .ready) core = some e) : refusal i core = some e := by
  cases i with
  | start d => rw [refusal, h, Option.some_or]
  | byte d b => rw [refusal, h, Option.some_or]
  | endMsg d => rw [refusal, h, Option.some_or]
  | _ => cases hi

section message

variable {i : Instr} {c : Channel} {s : State}

theorem exec_message_fault (hi : channelOfCommand i = some c) (h : s.core.phase = .fault) :
    exec i s = .next ⟨{ s.core with errs := s.core.errs ||| 0x02#8 }, s.pending, s.responses ++ [0x2000#16]⟩ :=
  exec_of_refusal (refusal_of_phaseRefusal hi (phaseRefusal_fault _ _ h))

theorem exec_message_unconf (hi : channelOfCommand i = some c) (h : s.core.phase = .unconf) :
    exec i s = .next ⟨{ s.core with errs := s.core.errs ||| 0x04#8 }, s.pending, s.responses ++ [0x3000#16]⟩ := by
  have hphase : phaseRefusal (some .ready) s.core = some .phase := by simp [h]
  exact exec_of_refusal (refusal_of_phaseRefusal hi hphase)

theorem exec_start_busy (h : s.core.phase = .ready) (ha : (s.core.chan c).active = true) :
    exec (.start c) s =
      .next ⟨{ s.core with errs := s.core.errs ||| 0x20#8 }, s.pending, s.responses ++ [0x6000#16]⟩ := by
  have hbusy : refusal (.start c) s.core = some .busy := by simp [refusal, h, busyRefusal, ha]
  exact exec_of_refusal hbusy

/-- `BYTE` and `END` have the same checks: one outcome for both on an idle channel. -/
theorem exec_message_idle (hi : (∃ b, i = .byte c b) ∨ i = .endMsg c) (h : s.core.phase = .ready)
    (ha : (s.core.chan c).active = false) :
    exec i s = .next ⟨{ s.core with errs := s.core.errs ||| 0x40#8 }, s.pending, s.responses ++ [0x7000#16]⟩ := by
  have hidle : refusal i s.core = some .idle := by
    rcases hi with ⟨b, rfl⟩ | rfl <;> simp [refusal, h, idleRefusal, ha]
  exact exec_of_refusal hidle

end message

/-! ### `BYTE` in an open message -/

/-- R99 for the two variants a session can have. -/
theorem blockFn_of_variant {core : CoreState} {blk : Block → Block}
    (h : (core.var = .feistel ∧ blk = fun x => feistelBlock x core.rk) ∨
      (core.var = .placeholder ∧ blk = fun x => placeholderBlock x (k64 core.key))) : core.blockFn = some blk := by
  rcases h with ⟨hvar, rfl⟩ | ⟨hvar, rfl⟩
  · exact blockFn_feistel hvar
  · exact blockFn_placeholder hvar

/-- R113 with the output byte named: the channel stays open, its chaining word takes in the ciphertext byte, `DOUT` and the
response are the output. -/
theorem exec_byte_output {c : Channel} {b o : Byte} {s : State} {blk : Block → Block} (h : s.core.phase = .ready)
    (ha : (s.core.chan c).active = true) (hb : s.core.blockFn = some blk)
    (ho : o = b ^^^ (blk (s.core.chan c).chain).extractLsb' 56 8) :
    exec (.byte c b) s =
      .next ⟨s.core.setChan c ⟨true, ((s.core.chan c).chain <<< 8) ||| (ciphertextByte c b o).setWidth 64, o⟩, s.pending,
        s.responses ++ [o.setWidth 16]⟩ := by
  have hstep : cfbStep blk c (s.core.chan c).chain b = (o, nextChain (s.core.chan c).chain (ciphertextByte c b o)) := by
    rw [ho]
    rfl
  rw [exec_byte_active h ha hb, hstep, ← ha, ← respWord_data]
  rfl

/-! ### The three commands -/

/-- Settles O18: `exec_message_fault`, `exec_message_unconf` and `exec_start_busy` for the refusals, `exec_start_idle` on
each channel. -/
theorem startOpensAMessageAtTheIv : Obligations.StartOpensAMessageAtTheIv :=
  ⟨fun _ => rfl, fun _ _ => exec_message_fault rfl, fun _ _ => exec_message_unconf rfl, fun _ _ => exec_start_busy,
    fun _ => exec_start_idle (c := .enc), fun _ => exec_start_idle (c := .dec)⟩

/-- Settles O19: `exec_message_fault`, `exec_message_unconf` and `exec_message_idle` for the refusals,
`exec_byte_output` on each channel. -/
theorem byteProcessesOneByte : Obligations.ByteProcessesOneByte := by
  refine ⟨fun c b => ?_, fun _ _ _ => exec_message_fault rfl, fun _ _ _ => exec_message_unconf rfl,
    fun _ _ _ => exec_message_idle (.inl ⟨_, rfl⟩), fun b o s blk h ha hv ho => ?_, fun b o s blk h ha hv ho => ?_⟩
  · rw [encode, placed, placed, BitVec.shiftLeft_zero]
  · exact exec_byte_output (c := .enc) h ha (blockFn_of_variant hv) ho
  · exact exec_byte_output (c := .dec) h ha (blockFn_of_variant hv) ho

/-- Settles O21: `exec_message_fault`, `exec_message_unconf` and `exec_message_idle` for the refusals,
`exec_endMsg_active` on each channel. -/
theorem endClosesTheMessage : Obligations.EndClosesTheMessage :=
  ⟨fun _ => rfl, fun _ _ => exec_message_fault rfl, fun _ _ => exec_message_unconf rfl,
    fun _ _ => exec_message_idle (.inr rfl), fun _ => exec_endMsg_active (c := .enc),
    fun _ => exec_endMsg_active (c := .dec)⟩

end Sys2Proof.Proofs
end

section
/-! The commands that build, inspect and destroy a session (42_session_control.md R130 to R135): their words, the refusals
of the loads and of `INIT`, the one byte and mask bit a load writes, and what each command answers when it is performed. -/

namespace Sys2Proof.Proofs

open Sys2Proof.Machine Sys2Proof.Safety

/-! ### The words of the commands -/

/-- An index operand is placed as its number. -/
theorem placed_ofFin {n : Nat} (i : Fin (2 ^ n)) (pos : Nat) :
    placed (BitVec.ofFin i) pos = BitVec.ofNat 16 i.val <<< pos := by
  rw [placed, ← BitVec.ofNat_toNat, BitVec.toNat_ofFin]

theorem placed_zero {n : Nat} (v : BitVec n) : placed v 0 = v.setWidth 16 := by
  rw [placed, BitVec.shiftLeft_zero]

theorem decode_eq_nop_iff (w : CmdWord) : decode w = .command .nop ↔ w = 0x0000#16 := by
  constructor
  · unfold decode
    split_ifs <;> simp [*]
  · rintro rfl
    rfl

theorem decode_eq_reset_iff (w : CmdWord) : decode w = .command .reset ↔ w = 0xF000#16 := by
  constructor
  · unfold decode
    split_ifs <;> simp [*]
  · rintro rfl
    rfl

/-- R132: the top bit of `idx` is no bit of an IV index, so an `LDIV` word with that bit set does not fit its format. -/
theorem decode_illegal_of_ldiv_range {w : CmdWord} (hlo : 0x2800#16 ≤ w) (hhi : w ≤ 0x2FFF#16) :
    ∃ why, decode w = .illegal why := by
  have hlo' : 0x2800 ≤ w.toNat := BitVec.le_def.mp hlo
  have hhi' : w.toNat ≤ 0x2FFF := BitVec.le_def.mp hhi
  have hop : (CmdFields.ofWord w).op = 0x2#4 := by
    refine BitVec.eq_of_toNat_eq ?_
    rw [ofWord_op_toNat, BitVec.toNat_ofNat]
    omega
  have htop : (CmdFields.ofWord w).idx.getLsbD 3 = true := by
    have hdiv : w.toNat / 2 ^ 11 % 2 = 1 := by omega
    rw [CmdFields.ofWord, BitVec.getLsbD_extractLsb', BitVec.getLsbD, Nat.testBit_eq_decide_div_mod_eq, hdiv]
    rfl
  have hformat : Format.ofOp (CmdFields.ofWord w).op = some .ib := by rw [hop]; rfl
  rw [decode_illegal_iff, wellFormed_iff_of_format hformat]
  rintro ⟨hidx, -⟩
  have hbit : ((CmdFields.ofWord w).idx &&& ~~~Format.ib.idxBits).getLsbD 3 = false := by rw [hidx]; rfl
  rw [BitVec.getLsbD_and, htop] at hbit
  cases hbit

/-! ### Refusals -/

/-- The commands that need `UNCONF` (R131 to R133). -/
def isBuildCommand (i : Instr) : Bool :=
  match i with
  | .ldk _ _ | .ldiv _ _ | .init _ => true
  | _ => false

section refusals

variable {i : Instr} {v : Variant} {c : CoreState} {s : State} {e : ErrCode}

/-- R131 to R133: the phase check of a command that builds a session decides before anything else is looked at. -/
theorem refusal_of_isBuildCommand (hi : isBuildCommand i = true) (h : phaseRefusal (some .unconf) c = some e) :
    refusal i c = some e := by
  cases i with
  | ldk k b => exact h
  | ldiv k b => exact h
  | init v => rw [refusal, initRefusal, h, Option.some_or]
  | _ => cases hi

theorem exec_build_fault (hi : isBuildCommand i = true) (h : s.core.phase = .fault) :
    exec i s = .next ⟨{ s.core with errs := s.core.errs ||| 0x02#8 }, s.pending, s.responses ++ [0x2000#16]⟩ :=
  exec_of_refusal (refusal_of_isBuildCommand hi (phaseRefusal_fault _ _ h))

theorem exec_build_ready (hi : isBuildCommand i = true) (h : s.core.phase = .ready) :
    exec i s = .next ⟨{ s.core with errs := s.core.errs ||| 0x04#8 }, s.pending, s.responses ++ [0x3000#16]⟩ := by
  have hphase : phaseRefusal (some .unconf) s.core = some .phase := by simp [h]
  exact exec_of_refusal (refusal_of_isBuildCommand hi hphase)

theorem lengthRefusal_of_incomplete (h : c.kmask ≠ 0xFFFF#16 ∨ c.ivmask ≠ 0xFF#8) : lengthRefusal c = some .len := by
  rcases h with h | h <;> simp [lengthRefusal, CoreState.kfull, CoreState.ivfull, h]

theorem lengthRefusal_of_complete (hk : c.kmask = 0xFFFF#16) (hiv : c.ivmask = 0xFF#8) : lengthRefusal c = none := by
  simp [lengthRefusal, CoreState.kfull, CoreState.ivfull, hk, hiv]

theorem variantRefusal_of_unusable (h : v = .ref ∨ v = .reserved) : variantRefusal v = some .variant := by
  rcases h with rfl | rfl <;> rfl

theorem variantRefusal_of_usable (h : v = .placeholder ∨ v = .feistel) : variantRefusal v = none := by
  rcases h with rfl | rfl <;> rfl

/-- The checks of `INIT` left in `UNCONF`. -/
theorem refusal_init_unconf (h : c.phase = .unconf) :
    refusal (.init v) c = (variantRefusal v).or (lengthRefusal c) := by
  simp [refusal, initRefusal, h]

/-- The variant check comes before the length check: the key and IV may be complete or not. -/
theorem refusal_init_variant (h : c.phase = .unconf) (hv : v = .ref ∨ v = .reserved) :
    refusal (.init v) c = some .variant := by
  rw [refusal_init_unconf h, variantRefusal_of_unusable hv, Option.some_or]

theorem refusal_init_incomplete (h : c.phase = .unconf) (hv : v = .placeholder ∨ v = .feistel)
    (hl : c.kmask ≠ 0xFFFF#16 ∨ c.ivmask ≠ 0xFF#8) : refusal (.init v) c = some .len := by
  rw [refusal_init_unconf h, variantRefusal_of_usable hv, Option.none_or, lengthRefusal_of_incomplete hl]

theorem refusal_init_complete (h : c.phase = .unconf) (hv : v = .placeholder ∨ v = .feistel)
    (hk : c.kmask = 0xFFFF#16) (hiv : c.ivmask = 0xFF#8) : refusal (.init v) c = none := by
  rw [refusal_init_unconf h, variantRefusal_of_usable hv, Option.none_or, lengthRefusal_of_complete hk hiv]

end refusals

/-! ### Performed commands -/

/-- A command whose checks pass and whose effect is known answers OK with that effect. -/
theorem exec_of_effect {i : Instr} {s : State} {core : CoreState} {data : Byte} (hr : refusal i s.core = none)
    (he : effect defaultParams i s.core = some (core, data)) : exec i s = .next (after core data s) := by
  rw [exec_eq, hr, unlessRefused_none, he]
  rfl

theorem exec_init_complete {v : Variant} {s : State} (h : s.core.phase = .unconf) (hv : v = .placeholder ∨ v = .feistel)
    (hk : s.core.kmask = 0xFFFF#16) (hiv : s.core.ivmask = 0xFF#8) :
    exec (.init v) s = .next (after (s.core.constructed defaultParams v) 0x00#8 s) :=
  exec_of_effect (refusal_init_complete h hv hk hiv) rfl

/-! ### The byte and the mask bit a load writes (R131, R132) -/

section loads

variable {n : Nat}

theorem vector_getElem_set (bytes : Vector Byte n) (i j : Fin n) (b : Byte) :
    (bytes.set i.val b)[j] = if j = i then b else bytes[j] := by
  simp [Vector.getElem_set, Fin.ext_iff, eq_comm]

theorem getLsbD_or_one_shiftLeft (mask : BitVec n) (i j : Fin n) :
    (mask ||| (1#n <<< i.val)).getLsbD j = (decide (j = i) || mask.getLsbD j) := by
  rw [← BitVec.twoPow_eq, BitVec.getLsbD_or, BitVec.getLsbD_twoPow, Bool.or_comm]
  simp [Fin.ext_iff, eq_comm]

end loads

/-! ### The six commands -/

/-- Settles O12: the phase check of `NOP`, failed and passed, and the one word of `decode_eq_nop_iff`. -/
theorem nopDoesNothing : Obligations.NopDoesNothing := by
  refine ⟨fun s h => ?_, fun s h => ?_, decode_eq_nop_iff⟩
  · have hfault : refusal .nop s.core = some .fault := phaseRefusal_fault _ _ h
    exact exec_of_refusal hfault
  · have hpass : refusal .nop s.core = none := phaseRefusal_none _ h
    exact exec_of_effect hpass rfl

/-- Settles O13: the phase check, then `exec_ldk_unconf` with the byte and the mask bit read at every index. -/
theorem ldkLoadsOneKeyByte : Obligations.LdkLoadsOneKeyByte := by
  refine ⟨fun i b => ?_, fun _ _ _ => exec_build_fault rfl, fun _ _ _ => exec_build_ready rfl,
    fun i b s h => ⟨_, _, exec_ldk_unconf h, fun j => vector_getElem_set _ i j b, getLsbD_or_one_shiftLeft _ i⟩,
    _, exec_ldk_unconf rfl, rfl, rfl⟩
  rw [encode, placed_ofFin, placed_zero]

/-- Settles O14: as `ldkLoadsOneKeyByte`, and the illegal indices by `decode_illegal_of_ldiv_range`. -/
theorem ldivLoadsOneIvByte : Obligations.LdivLoadsOneIvByte := by
  refine ⟨fun i b => ?_, fun _ => decode_illegal_of_ldiv_range,
    fun _ _ _ => exec_build_fault rfl, fun _ _ _ => exec_build_ready rfl,
    fun i b s h => ⟨_, _, exec_ldiv_unconf h, fun j => vector_getElem_set _ i j b, getLsbD_or_one_shiftLeft _ i⟩,
    _, exec_ldiv_unconf rfl, rfl, rfl⟩
  rw [encode, placed_ofFin, placed_zero]

/-- Settles O15: one lemma for each of R133's checks in their order, then `exec_init_complete` for the two variants; the
worked example is run. -/
theorem initConstructsTheSession : Obligations.InitConstructsTheSession := by
  refine ⟨fun v => ?_, fun _ _ => exec_build_fault rfl, fun _ _ => exec_build_ready rfl,
    fun _ _ h hv => exec_of_refusal (refusal_init_variant h hv),
    fun _ _ h hv hl => exec_of_refusal (refusal_init_incomplete h hv hl),
    fun _ h => exec_init_complete h (.inl rfl), fun _ h => exec_init_complete h (.inr rfl), _, rfl, rfl, rfl, rfl⟩
  rw [encode, placed_zero]

/-- Settles O16: `exec_rdst_setWidth` for each register; outside `READY` both channels are at their reset value. -/
theorem rdstReadsWithoutSideEffect : Obligations.RdstReadsWithoutSideEffect := by
  refine ⟨exec_rdst_setWidth .status, exec_rdst_setWidth .errs, exec_rdst_setWidth .dout0, exec_rdst_setWidth .dout1,
    fun s hinv h => ?_, rfl, rfl, rfl, rfl⟩
  obtain ⟨h0, h1⟩ := hinv.unready_channels h
  rw [h0, h1]
  exact ⟨rfl, rfl⟩

/-- Settles O17: `exec_reset` in any state, the two reads run from the state it leaves, and the one word of
`decode_eq_reset_iff`. -/
theorem resetDestroysTheSession : Obligations.ResetDestroysTheSession := by
  refine ⟨fun _ => exec_reset, fun s r hr => ?_, decode_eq_reset_iff⟩
  have hread : CoreState.reset.statusReg r = 0x00#8 := by
    rcases List.mem_pair.mp hr with rfl | rfl <;> rfl
  rw [execAll_cons_next _ exec_reset, execAll_cons_next _ exec_rdst, execAll_nil, after_core, hread]
  simp [after, respond, respWord_zero, State.reset]

end Sys2Proof.Proofs
end

section
/-! Refusals (60_exceptions.md R150 to R159): the checks of a presented word, the one code they decide, the cause of each
code, and the state and response of a refusal. -/

namespace Sys2Proof.Proofs

open Sys2Proof.Machine Sys2Proof.Safety

/-! ### When each check refuses, and with which code -/

section checks

variable {c : CoreState} {e : ErrCode}

/-- A load or `INIT` (R153, R154). -/
@[simp] theorem phaseRefusal_unconf_eq_some_iff : phaseRefusal (some .unconf) c = some e ↔
    c.phase = .fault ∧ e = .fault ∨ c.phase = .ready ∧ e = .phase := by
  cases h : c.phase <;> simp [h, eq_comm]

/-- A message command (R153, R154). -/
@[simp] theorem phaseRefusal_ready_eq_some_iff : phaseRefusal (some .ready) c = some e ↔
    c.phase = .fault ∧ e = .fault ∨ c.phase = .unconf ∧ e = .phase := by
  cases h : c.phase <;> simp [h, eq_comm]

@[simp] theorem variantRefusal_eq_some_iff {v : Variant} :
    variantRefusal v = some e ↔ (v = .ref ∨ v = .reserved) ∧ e = .variant := by
  cases v <;> simp [variantRefusal, eq_comm]

@[simp] theorem lengthRefusal_eq_some_iff :
    lengthRefusal c = some e ↔ (c.kmask ≠ 0xFFFF#16 ∨ c.ivmask ≠ 0xFF#8) ∧ e = .len := by
  simp [lengthRefusal, CoreState.kfull, CoreState.ivfull, imp_iff_not_or, eq_comm (a := e)]

@[simp] theorem busyRefusal_eq_some_iff {x : ChanCtx} : busyRefusal x = some e ↔ x.active = true ∧ e = .busy := by
  simp [busyRefusal, eq_comm (a := e)]

@[simp] theorem idleRefusal_eq_some_iff {x : ChanCtx} : idleRefusal x = some e ↔ x.active = false ∧ e = .idle := by
  simp [idleRefusal, eq_comm (a := e)]

theorem phaseRefusal_eq_none_iff {q : Phase} (hq : q ≠ .fault) : phaseRefusal (some q) c = none ↔ c.phase = q :=
  ⟨phaseRefusal_eq_none, fun h => phaseRefusal_met c q h hq⟩

theorem variantRefusal_eq_none_iff {v : Variant} : variantRefusal v = none ↔ v = .placeholder ∨ v = .feistel :=
  ⟨variantRefusal_eq_none, variantRefusal_of_usable⟩

end checks

/-! ### When each command is refused, and with which code (R159) -/

section commands

variable {c : CoreState} {e : ErrCode} {ch : Channel}

@[simp] theorem refusal_nop_eq_some_iff : refusal .nop c = some e ↔ c.phase = .fault ∧ e = .fault := by
  cases h : c.phase <;> simp [refusal, h, eq_comm]

@[simp] theorem refusal_ldk_eq_some_iff {k : Fin 16} {b : Byte} : refusal (.ldk k b) c = some e ↔
    c.phase = .fault ∧ e = .fault ∨ c.phase = .ready ∧ e = .phase := phaseRefusal_unconf_eq_some_iff

@[simp] theorem refusal_ldiv_eq_some_iff {k : Fin 8} {b : Byte} : refusal (.ldiv k b) c = some e ↔
    c.phase = .fault ∧ e = .fault ∨ c.phase = .ready ∧ e = .phase := phaseRefusal_unconf_eq_some_iff

@[simp] theorem refusal_init_eq_some_iff {v : Variant} : refusal (.init v) c = some e ↔
    (c.phase = .fault ∧ e = .fault ∨ c.phase = .ready ∧ e = .phase) ∨
    c.phase = .unconf ∧ ((v = .ref ∨ v = .reserved) ∧ e = .variant ∨
      (v = .placeholder ∨ v = .feistel) ∧ (c.kmask ≠ 0xFFFF#16 ∨ c.ivmask ≠ 0xFF#8) ∧ e = .len) := by
  rw [refusal, initRefusal, Option.or_eq_some_iff, Option.or_eq_some_iff, phaseRefusal_unconf_eq_some_iff,
    phaseRefusal_eq_none_iff (by decide), variantRefusal_eq_some_iff, variantRefusal_eq_none_iff,
    lengthRefusal_eq_some_iff]

@[simp] theorem refusal_start_eq_some_iff : refusal (.start ch) c = some e ↔
    (c.phase = .fault ∧ e = .fault ∨ c.phase = .unconf ∧ e = .phase) ∨
    c.phase = .ready ∧ (c.chan ch).active = true ∧ e = .busy := by
  rw [refusal, Option.or_eq_some_iff, phaseRefusal_ready_eq_some_iff, phaseRefusal_eq_none_iff (by decide),
    busyRefusal_eq_some_iff]

@[simp] theorem refusal_endMsg_eq_some_iff : refusal (.endMsg ch) c = some e ↔
    (c.phase = .fault ∧ e = .fault ∨ c.phase = .unconf ∧ e = .phase) ∨
    c.phase = .ready ∧ (c.chan ch).active = false ∧ e = .idle := by
  rw [refusal, Option.or_eq_some_iff, phaseRefusal_ready_eq_some_iff, phaseRefusal_eq_none_iff (by decide),
    idleRefusal_eq_some_iff]

/-- `BYTE` has the checks of `END`. -/
@[simp] theorem refusal_byte_eq_some_iff {b : Byte} : refusal (.byte ch b) c = some e ↔
    (c.phase = .fault ∧ e = .fault ∨ c.phase = .unconf ∧ e = .phase) ∨
    c.phase = .ready ∧ (c.chan ch).active = false ∧ e = .idle := refusal_endMsg_eq_some_iff

@[simp] theorem refusal_rdst_eq_none {r : StatusReg} : refusal (.rdst r) c = none := rfl

@[simp] theorem refusal_reset_eq_none : refusal .reset c = none := rfl

end commands

/-! ### The cause of each code (R152 to R158) -/

/-- The code that all the checks of a presented word decide, decode being the first (R159); `none` if they all pass. -/
def decodedRefusal (d : Decoded) (c : CoreState) : Option ErrCode :=
  match d with
  | .command i => refusal i c
  | .illegal _ => some .illegal

@[simp] theorem decodedRefusal_command (i : Instr) (c : CoreState) : decodedRefusal (.command i) c = refusal i c := rfl

@[simp] theorem decodedRefusal_illegal (why : IllegalWord) (c : CoreState) :
    decodedRefusal (.illegal why) c = some .illegal := rfl

section causes

variable {d : Decoded} {c : CoreState}

/-- R152. -/
theorem decodedRefusal_eq_illegal_iff : decodedRefusal d c = some .illegal ↔ ∃ why, d = .illegal why := by
  cases d with
  | illegal why => simp
  | command i => cases i <;> simp

/-- R153. -/
theorem decodedRefusal_eq_fault_iff : decodedRefusal d c = some .fault ↔
    c.phase = .fault ∧ ∃ i, d = .command i ∧ i ≠ .reset ∧ ∀ x, i ≠ .rdst x := by
  cases d with
  | illegal why => simp
  | command i => cases i <;> simp

/-- R154. -/
theorem decodedRefusal_eq_phase_iff : decodedRefusal d c = some .phase ↔
    (c.phase = .ready ∧ ((∃ k b, d = .command (.ldk k b)) ∨ (∃ k b, d = .command (.ldiv k b)) ∨
      ∃ v, d = .command (.init v))) ∨
    (c.phase = .unconf ∧ ((∃ ch, d = .command (.start ch)) ∨ (∃ ch b, d = .command (.byte ch b)) ∨
      ∃ ch, d = .command (.endMsg ch))) := by
  cases d with
  | illegal why => simp
  | command i => cases i <;> simp

/-- R155. -/
theorem decodedRefusal_eq_len_iff : decodedRefusal d c = some .len ↔
    c.phase = .unconf ∧ (d = .command (.init .placeholder) ∨ d = .command (.init .feistel)) ∧
      (c.kmask ≠ 0xFFFF#16 ∨ c.ivmask ≠ 0xFF#8) := by
  cases d with
  | illegal why => simp
  | command i => cases i <;> simp

/-- R156. -/
theorem decodedRefusal_eq_variant_iff : decodedRefusal d c = some .variant ↔
    c.phase = .unconf ∧ (d = .command (.init .ref) ∨ d = .command (.init .reserved)) := by
  cases d with
  | illegal why => simp
  | command i => cases i <;> simp

/-- R157. -/
theorem decodedRefusal_eq_busy_iff : decodedRefusal d c = some .busy ↔
    c.phase = .ready ∧ ∃ ch, d = .command (.start ch) ∧ (c.chan ch).active = true := by
  cases d with
  | illegal why => simp
  | command i => cases i <;> simp

/-- R158. -/
theorem decodedRefusal_eq_idle_iff : decodedRefusal d c = some .idle ↔
    c.phase = .ready ∧ ∃ ch, ((∃ b, d = .command (.byte ch b)) ∨ d = .command (.endMsg ch)) ∧
      (c.chan ch).active = false := by
  cases d with
  | illegal why => simp
  | command i => cases i <;> simp

end causes

/-! ### The state and the response of a refusal (R150, R151) -/

theorem errCode_code_injective {e e' : ErrCode} (h : e.code = e'.code) : e = e' := by
  cases e <;> cases e' <;> simp [ErrCode.code] at h ⊢

/-- Every code but 0 of R151's table is that of a refusal. -/
theorem exists_errCode_of_ne_zero : ∀ code : Fin 8, code ≠ 0 → ∃ e : ErrCode, e.code = code.val
  | 1, _ => ⟨.illegal, rfl⟩
  | 2, _ => ⟨.fault, rfl⟩
  | 3, _ => ⟨.phase, rfl⟩
  | 4, _ => ⟨.len, rfl⟩
  | 5, _ => ⟨.variant, rfl⟩
  | 6, _ => ⟨.busy, rfl⟩
  | 7, _ => ⟨.idle, rfl⟩

/-- The core after a refusal, by the number of its code. -/
theorem refused_eq (c : CoreState) (e : ErrCode) : c.refused e =
    { c with errs := c.errs ||| (1#8 <<< (e.code - 1)), phase := if e.code = 4 then .fault else c.phase } := by
  cases e <;> rfl

/-- A status that is the code the checks decide (0 for none) is the code of one refusal alone. -/
theorem status_eq_code_iff {status : BitVec 4} {o : Option ErrCode} (h : status.toNat = o.elim 0 ErrCode.code)
    (e : ErrCode) : status = BitVec.ofNat 4 e.code ↔ o = some e := by
  rw [← BitVec.toNat_inj, errCode_ofNat_toNat, h]
  cases o with
  | none => simpa using Nat.ne_of_lt e.code_range.1
  | some e' => exact ⟨fun he => congrArg some (errCode_code_injective he), by rintro ⟨⟩; rfl⟩

theorem statusCode_eq (w : CmdWord) (c : CoreState) :
    statusCode w c = (decodedRefusal (decode w) c).elim 0 ErrCode.code := by
  cases hd : decode w with
  | illegal why => exact statusCode_illegal hd c
  | command i => exact statusCode_command hd c

/-- A step with a word presented refuses it with the code its checks decide, or performs its command. -/
theorem step_checks_cases {s t : State} {w : CmdWord} {rest : List CmdWord} (hp : s.pending = w :: rest)
    (h : step s = .next t) :
    (∃ e, decodedRefusal (decode w) s.core = some e ∧ t = refuse e { s with pending := rest }) ∨
    (decodedRefusal (decode w) s.core = none ∧ ∃ core data, t = after core data { s with pending := rest }) := by
  cases hd : decode w with
  | illegal why =>
    rw [step_illegal hp hd] at h
    exact .inl ⟨.illegal, rfl, (Host.Outcome.next.inj h).symm⟩
  | command i =>
    rw [step_command hp hd] at h
    rcases exec_cases h with hrefused | ⟨hn, core, data, -, ht⟩
    · exact .inl hrefused
    · exact .inr ⟨hn, core, data, ht⟩

/-- The response to a presented word: its status is the code the checks decide, and a refusal has no data and R150's
effect on the core. -/
theorem step_response {s t : State} {w : CmdWord} {rest : List CmdWord} (hp : s.pending = w :: rest)
    (h : step s = .next t) : ∃ r : RespWord, t.responses = s.responses ++ [r] ∧
      (respStatus r).toNat = (decodedRefusal (decode w) s.core).elim 0 ErrCode.code ∧
      ∀ e, decodedRefusal (decode w) s.core = some e → respData r = 0#8 ∧ t.core = s.core.refused e := by
  rcases step_checks_cases hp h with ⟨e, hd, rfl⟩ | ⟨hd, core, data, rfl⟩
  · refine ⟨_, refuse_responses _ e, ?_, fun e' he' => ?_⟩
    · rw [respStatus_respWord, errCode_ofNat_toNat, hd, Option.elim_some]
    · obtain rfl := Option.some.inj (hd.symm.trans he')
      exact ⟨respData_respWord _ _, rfl⟩
  · refine ⟨_, after_responses core data _, ?_, fun e he => nomatch hd.symm.trans he⟩
    rw [respStatus_respWord, hd]
    rfl

/-! ### The three statements -/

/-- Settles O22: a refused command by `refused_eq`, a performed one by `effect_errs`. -/
theorem refusalsArePrecise : Obligations.RefusalsArePrecise := by
  intro i s t h
  rcases exec_cases h with ⟨e, -, rfl⟩ | ⟨-, core, data, he, rfl⟩
  · have hrange := e.code_range
    have hword : respWord (BitVec.ofNat 4 e.code) 0x00#8 = BitVec.ofNat 16 (e.code * 0x1000) := by cases e <;> rfl
    exact ⟨_, refuse_responses s e, rfl, .inr ⟨e.code, hrange.1, hrange.2, hword, refused_eq s.core e⟩⟩
  · exact ⟨_, after_responses core data s, rfl, .inl ⟨respStatus_respWord 0#4 data, fun hi => effect_errs hi he⟩⟩

/-- Settles O23: `step_response` turns each status into the code the checks decide, and each code has its cause. -/
theorem eachRefusalHasItsCause : Obligations.EachRefusalHasItsCause := by
  intro s t w rest hp h
  obtain ⟨r, hr, hstatus, heffect⟩ := step_response hp h
  have hcode := status_eq_code_iff hstatus
  refine ⟨r, hr, (hcode .illegal).trans decodedRefusal_eq_illegal_iff, (hcode .fault).trans decodedRefusal_eq_fault_iff,
    (hcode .phase).trans decodedRefusal_eq_phase_iff, (hcode .len).trans decodedRefusal_eq_len_iff,
    (hcode .variant).trans decodedRefusal_eq_variant_iff, (hcode .busy).trans decodedRefusal_eq_busy_iff,
    (hcode .idle).trans decodedRefusal_eq_idle_iff, fun code hne hcd => ?_⟩
  obtain ⟨e, he⟩ := exists_errCode_of_ne_zero code hne
  obtain ⟨hdata, hcore⟩ := heffect e ((hcode e).mp (he ▸ hcd))
  have hfour : code = 4 ↔ code.val = 4 := Fin.ext_iff
  refine ⟨hdata, ?_⟩
  simp only [hcore, refused_eq, he, hfour]

/-- Settles O24: `step_response`, the code the checks decide being the code of R159's list. -/
theorem firstFailingCheckDecidesTheStatus : Obligations.FirstFailingCheckDecidesTheStatus := by
  intro s t w rest hp h
  obtain ⟨r, hr, hstatus, -⟩ := step_response hp h
  exact ⟨r, hr, hstatus.trans (statusCode_eq w s.core).symm⟩

end Sys2Proof.Proofs
end

section
/-! The encoder against the decoder (30_encoding.md R60 to R63, R71): the decoder is the opcode map with the operands read
from the selected row's fields, and each command's word is selected by its own row. -/

namespace Sys2Proof.Proofs

open Sys2Proof.Laws

/-! ### The command a row stands for -/

/-- The command of a mnemonic, with its operands read from a word (R62). -/
def readAs (m : Mnemonic) (w : CmdWord) : Instr :=
  match m with
  | .NOP => .nop
  | .LDK => .ldk (keyIndexOf w) (immByteOf w)
  | .LDIV => .ldiv (ivIndexOf w) (immByteOf w)
  | .INIT => .init (variantOf w)
  | .START => .start (channelOf w)
  | .BYTE => .byte (channelOf w) (immByteOf w)
  | .END => .endMsg (channelOf w)
  | .RDST => .rdst (statusRegOf w)
  | .RESET => .reset

@[simp] theorem readAs_mnemonic (m : Mnemonic) (w : CmdWord) : (readAs m w).mnemonic = m := by cases m <;> rfl

theorem opcodeMap_eq_of_mnemonic : ∀ row ∈ opcodeMap, ∀ row' ∈ opcodeMap,
    row.mnemonic = row'.mnemonic → row = row' := by decide

/-- Every decoded command is that of a row which selects the word. -/
theorem exists_row_of_decode {w : CmdWord} {i : Instr} (h : decode w = .command i) :
    ∃ row ∈ opcodeMap, row.selects w = true ∧ i = readAs row.mnemonic w := by
  have hfull : w &&& 0xFFFF#16 = w := BitVec.and_allOnes
  simp only [opcodeMap, OpcodeRow.selects, List.exists_mem_cons_iff, beq_iff_eq, hfull, ← op_eq_one_iff]
  unfold decode at h
  split_ifs at h <;> simp_all [readAs]

/-- The row that selects a word decodes it. -/
theorem decode_of_selects {row : OpcodeRow} {w : CmdWord} (hrow : row ∈ opcodeMap) (h : row.selects w = true) :
    decode w = .command (readAs row.mnemonic w) := by
  cases hd : decode w with
  | illegal why => exact absurd ⟨row, hrow, h⟩ ((decode_illegal_iff_no_row w).mp ⟨why, hd⟩)
  | command i =>
    obtain ⟨row', hrow', h', rfl⟩ := exists_row_of_decode hd
    rw [row_eq_of_selects hrow hrow' h h']

/-- Settles O4: `decode_of_selects` one way, `exists_row_of_decode` the other, and `row_eq_of_selects`. -/
theorem decoderAgreesWithOpcodeMap : Obligations.DecoderAgreesWithOpcodeMap := by
  refine fun w => ⟨fun row hrow => ⟨fun h => ⟨_, decode_of_selects hrow h, readAs_mnemonic _ _⟩, ?_⟩,
    fun row hrow row' hrow' => row_eq_of_selects hrow hrow'⟩
  rintro ⟨i, hd, hm⟩
  obtain ⟨row', hrow', h', rfl⟩ := exists_row_of_decode hd
  rw [readAs_mnemonic] at hm
  rwa [opcodeMap_eq_of_mnemonic row hrow row' hrow' hm.symm]

/-- Settles O5: `decode_illegal_iff`, a word being illegal or a command. -/
theorem legalWordsFitTheirFormat : Obligations.LegalWordsFitTheirFormat := by
  intro w
  rw [← not_iff_not, ← decode_illegal_iff]
  cases decode w <;> simp

/-! ### From the word to the command and back -/

/-- What is placed above or below a field is not in it. -/
theorem extractLsb'_placed_disjoint {n start len pos : Nat} (v : BitVec n) (h : start + len ≤ pos ∨ pos + n ≤ start)
    (hlen : start + len ≤ 16) : (placed v pos).extractLsb' start len = 0#len := by
  refine BitVec.eq_of_getLsbD_eq fun k hk => ?_
  rw [BitVec.getLsbD_extractLsb', placed_getLsbD _ _ _ (by omega), BitVec.getLsbD_zero]
  rcases h with h | h
  · simp [show ¬ pos ≤ start + k by omega]
  · simp [BitVec.getLsbD_of_ge v (start + k - pos) (by omega)]

theorem extractLsb'_placed_same {n pos : Nat} (v : BitVec n) (h : pos + n ≤ 16) :
    (placed v pos).extractLsb' pos n = v := by
  refine BitVec.eq_of_getLsbD_eq fun k hk => ?_
  rw [BitVec.getLsbD_extractLsb', placed_getLsbD _ _ _ (by omega)]
  simp [hk]

/-- The opcode of a command's word is that of its row. -/
theorem encode_op (i : Instr) : ∃ row ∈ opcodeMap, row.mnemonic = i.mnemonic ∧
    (CmdFields.ofWord (encode i)).op = (CmdFields.ofWord row.pattern).op := by
  simp only [opcodeMap, List.exists_mem_cons_iff]
  cases i <;>
    simp [Instr.mnemonic, encode, CmdFields.ofWord, BitVec.extractLsb'_or, extractLsb'_placed_disjoint]

theorem encode_wellFormed (i : Instr) : (CmdFields.ofWord (encode i)).wellFormed = true := by
  cases i with
  | nop => exact EncodeFitsFormat.nop
  | ldk k b => exact EncodeFitsFormat.ldk k b
  | ldiv k b => exact EncodeFitsFormat.ldiv k b
  | init v => exact EncodeFitsFormat.init v
  | start c => exact EncodeFitsFormat.start c
  | byte c b => exact EncodeFitsFormat.byte c b
  | endMsg c => exact EncodeFitsFormat.endMsg c
  | rdst r => exact EncodeFitsFormat.rdst r
  | reset => exact EncodeFitsFormat.reset

/-- The operands are read where the encoder places them. -/
theorem readAs_encode (i : Instr) : readAs i.mnemonic (encode i) = i := by
  cases i <;>
    simp [readAs, Instr.mnemonic, encode, keyIndexOf, ivIndexOf, immByteOf, variantOf, channelOf, statusRegOf,
      BitVec.extractLsb'_or, extractLsb'_placed_disjoint, extractLsb'_placed_same]

/-- Settles O2: the word of a command has its row's opcode and fits its format, so that row selects it, and the operands
are read back by `readAs_encode`. -/
theorem decodeOfEncodeIsTheCommand : Obligations.DecodeOfEncodeIsTheCommand := by
  intro i
  obtain ⟨row, hrow, hm, hop⟩ := encode_op i
  have hsel : row.selects (encode i) = true := (selects_iff hrow _).mpr ⟨hop, encode_wellFormed i⟩
  rw [decode_of_selects hrow hsel, hm, readAs_encode]

/-- A field of a word, put back in its place, is the word's bits there. -/
theorem placed_extractLsb' {n pos : Nat} (w : CmdWord) :
    placed (w.extractLsb' pos n) pos = w &&& placed (BitVec.allOnes n) pos := by
  refine BitVec.eq_of_getLsbD_eq fun k hk => ?_
  rw [BitVec.getLsbD_and, placed_getLsbD _ _ _ hk, placed_getLsbD _ _ _ hk, BitVec.getLsbD_extractLsb',
    BitVec.getLsbD_allOnes]
  by_cases h : pos ≤ k
  · simp [h, Bool.and_comm]
  · simp [h]

/-- The encoder takes the pattern's bits where the mask fixes them and the word's operand bits elsewhere. -/
theorem encode_readAs {row : OpcodeRow} (hrow : row ∈ opcodeMap) (w : CmdWord) :
    encode (readAs row.mnemonic w) = row.pattern ||| (w &&& ~~~row.mask) := by
  -- an operand field becomes the word under the field's mask; a row's fields are what its own mask leaves free
  fin_cases hrow <;>
    simp only [readAs, encode, keyIndexOf, ivIndexOf, immByteOf, variantOf, channelOf, statusRegOf,
      Channel.toBits_ofBits, Variant.toBits_ofBits, StatusReg.toBits_ofBits, BitVec.ofFin_toFin, placed_extractLsb',
      BitVec.or_assoc, ← BitVec.and_or_distrib_left]
  all_goals simp [placed]

/-- Settles O3: the selecting row's pattern is the word where the mask fixes it, and `encode_readAs` has the rest. -/
theorem encodeOfDecodeIsTheWord : Obligations.EncodeOfDecodeIsTheWord := by
  intro w i hd
  obtain ⟨row, hrow, hsel, rfl⟩ := exists_row_of_decode hd
  have hpattern : w &&& row.mask = row.pattern := beq_iff_eq.mp hsel
  have hsplit : row.mask ||| ~~~row.mask = BitVec.allOnes 16 := by simp
  rw [encode_readAs hrow, ← hpattern, ← BitVec.and_or_distrib_left, hsplit, BitVec.and_allOnes]

/-- Settles O1: a fixed list of words, each decoded. -/
theorem specExampleWordsDecode : Obligations.SpecExampleWordsDecode := by
  unfold Obligations.SpecExampleWordsDecode
  decide

end Sys2Proof.Proofs
end

section
/-! Steps and runs (00_scope.md R6; 20_memory.md R49; 60_exceptions.md R160): presented commands are carried out in order,
and what every step keeps, every run keeps. -/

namespace Sys2Proof.Proofs

open Sys2Proof.Machine Sys2Proof.Safety

/-! ### One step -/

/-- Settles O7: `step_command`. -/
theorem stepRunsTheDecodedCommand : Obligations.StepRunsTheDecodedCommand := fun _ _ _ _ => step_command

theorem step_idle {s : State} (h : s.pending = []) : step s = .next s := by
  rw [step, fetch_of_nothing s h]
  rfl

/-- Settles O9: `step_idle`. -/
theorem coreWaitsForACommand : Obligations.CoreWaitsForACommand := fun _ => step_idle

/-- A step with an encoded command presented. -/
theorem step_encode {s : State} {i : Instr} {rest : List CmdWord} (hp : s.pending = encode i :: rest) :
    step s = exec i { s with pending := rest } := step_command hp (decodeOfEncodeIsTheCommand i)

theorem withFetchWord_encode (s : State) (i : Instr) :
    s.withFetchWord 16 (encode i).toNat = present (encode i) s := by
  rw [State.withFetchWord, tableWord_of_lt (encode i).isLt, BitVec.ofNat_toNat, BitVec.setWidth_eq]

/-- Settles O8: the presented word is the command's, and `step_encode` runs it. -/
theorem presentedCommandRunsNext : Obligations.PresentedCommandRunsNext := by
  intro s i
  rw [withFetchWord_encode, step_encode (present_pending s _)]
  rfl

/-! ### The three things a command can do -/

/-- Every command is refused, or performed, or stops for want of a block function; which of them, the core decides. -/
theorem exec_trichotomy (i : Instr) (c : CoreState) :
    (∃ e, refusal i c = some e ∧ ∀ s : State, s.core = c → exec i s = .next (refuse e s)) ∨
    (∃ d a, refusal i c = none ∧ effect defaultParams i c = some (d, a) ∧
      ∀ s : State, s.core = c → exec i s = .next (after d a s)) ∨
    (effect defaultParams i c = none ∧ ∀ s : State, s.core = c → exec i s = .fault .noBlockFunction) := by
  cases hr : refusal i c with
  | some e => exact .inl ⟨e, rfl, fun s hs => by rw [exec_eq, hs, hr, unlessRefused_some]⟩
  | none =>
    cases he : effect defaultParams i c with
    | some da => exact .inr (.inl ⟨da.1, da.2, rfl, rfl, fun s hs => exec_of_effect (hs ▸ hr) (hs ▸ he)⟩)
    | none => exact .inr (.inr ⟨rfl, fun s hs => by rw [exec_eq, hs, hr, he, unlessRefused_none]⟩)

/-- The words still to come and the responses given decide nothing. -/
theorem exec_pending_cases (i : Instr) (s : State) :
    (∃ t, t.pending = s.pending ∧ exec i s = .next t ∧
      ∀ rest, exec i { s with pending := rest } = .next { t with pending := rest }) ∨
    ∃ r, exec i s = .fault r ∧ ∀ rest, exec i { s with pending := rest } = .fault r := by
  rcases exec_trichotomy i s.core with ⟨e, -, h⟩ | ⟨d, a, -, -, h⟩ | ⟨-, h⟩
  · exact .inl ⟨refuse e s, rfl, h s rfl, fun rest => h _ rfl⟩
  · exact .inl ⟨after d a s, rfl, h s rfl, fun rest => h _ rfl⟩
  · exact .inr ⟨.noBlockFunction, h s rfl, fun rest => h _ rfl⟩

/-- Settles O10, by induction on the list: the first step is `exec` of the first command (`step_encode`), and the words
behind it stay presented (`exec_pending_cases`). -/
theorem presentedCommandsRunInOrder : Obligations.PresentedCommandsRunInOrder := by
  intro cmds
  induction cmds with
  | nil => exact fun s => rfl
  | cons i cmds ih =>
    intro s
    have hstep := step_encode (s := { s with pending := (i :: cmds).map encode ++ s.pending }) rfl
    rcases exec_pending_cases i s with ⟨t, hp, ht, hrest⟩ | ⟨r, hr, hrest⟩
    · rw [execAll_cons_next cmds ht, ← ih t, hp]
      exact run_of_step cmds.length (hstep.trans (hrest _))
    · rw [execAll, hr]
      exact run_of_fault cmds.length (hstep.trans (hrest _))

/-! ### Runs -/

/-- What every step keeps, every run keeps. -/
theorem run_keeps {P : State → Prop} (hstep : ∀ s t, P s → step s = .next t → P t) {n : Nat} {s t : State} (hs : P s)
    (h : Sys2Proof.core.run n s = .next t) : P t := by
  induction n generalizing s with
  | zero => exact Host.Outcome.next.inj h ▸ hs
  | succ n ih =>
    obtain ⟨u, hu, hrun⟩ := run_succ_cases h
    exact ih (hstep s u hs hu) hrun

/-- If every step from a state with a property answers, with the property kept, no run stops. -/
theorem neverStops_of_step {P : State → Prop} (hstep : ∀ s, P s → ∃ t, step s = .next t ∧ P t) {s : State} (hs : P s) :
    NeverStops s := by
  intro n
  induction n generalizing s with
  | zero => exact ⟨s, rfl⟩
  | succ n ih =>
    obtain ⟨t, ht, hP⟩ := hstep s hs
    rw [run_of_step n ht]
    exact ih hP

end Sys2Proof.Proofs
end

section
/-! The invariants of 10_state.md R33: they hold at reset, every command of the machine with any `RC` and `KS` keeps them,
so every step and every run do; and from a state that meets them nothing stops. -/

namespace Sys2Proof.Proofs

open Sys2Proof.Machine Sys2Proof.Safety

/-- Settles O28: each field at its reset value (R32). -/
theorem resetMeetsTheInvariant : Obligations.ResetMeetsTheInvariant := fun p =>
  { ready_complete := nofun
    ready_variant := nofun
    feistel_schedule := nofun
    unready_channels := fun _ => ⟨rfl, rfl⟩
    unready_schedule := fun _ => rfl
    idle_chain := fun ch _ => by cases ch <;> rfl
    errs_top := rfl
    fault_len := nofun
    unready_variant := fun _ => rfl
    placeholder_schedule := nofun
    unloaded_zero := ⟨fun i _ => Vector.getElem_replicate .., fun i _ => Vector.getElem_replicate ..⟩ }

/-! ### What each effect keeps -/

section keeps

variable {p : Params} {c : CoreState}

/-- No refusal sets `ERRS` bit 7 (R27). -/
theorem raised_errs_top {errs : BitVec 8} {e : ErrCode} (h : errs.getLsbD 7 = false) :
    (raised errs e).getLsbD 7 = false := by
  rw [raised_getLsbD, h, e.bit_top, Bool.or_false]

/-- A refusal, `E_LEN` being one of `UNCONF` only (R150, R155). -/
theorem inv_refused {e : ErrCode} (h : Inv p c) (he : e = .len → c.phase = .unconf) : Inv p (c.refused e) := by
  by_cases hlen : e = .len
  · have hphase : c.phase ≠ .ready := by simp [he hlen]
    subst hlen
    exact { h with
      ready_complete := nofun
      ready_variant := nofun
      feistel_schedule := nofun
      unready_channels := fun _ => h.unready_channels hphase
      unready_schedule := fun _ => h.unready_schedule hphase
      idle_chain := fun ch => by simpa using h.idle_chain ch
      errs_top := raised_errs_top h.errs_top
      fault_len := fun _ => by simp [raised_getLsbD, ErrCode.bit, ErrCode.code]
      unready_variant := fun _ => h.unready_variant hphase }
  · have hphase : (c.refused e).phase = c.phase := by simp [hlen]
    exact { h with
      ready_complete := hphase ▸ h.ready_complete
      ready_variant := hphase ▸ h.ready_variant
      feistel_schedule := hphase ▸ h.feistel_schedule
      unready_channels := hphase ▸ h.unready_channels
      unready_schedule := hphase ▸ h.unready_schedule
      idle_chain := fun ch => by simpa using h.idle_chain ch
      errs_top := raised_errs_top h.errs_top
      fault_len := fun hf => by simp [raised_getLsbD, h.fault_len (hphase ▸ hf)]
      unready_variant := hphase ▸ h.unready_variant }

/-- A load into a mask and its bytes: what is not loaded is as it was. -/
theorem unloaded_zero_set {n : Nat} {mask : BitVec n} {bytes : Vector Byte n} (i : Fin n) (b : Byte)
    (h : ∀ j : Fin n, mask.getLsbD j = false → bytes[j] = 0#8) (j : Fin n)
    (hj : (mask ||| (1#n <<< i.val)).getLsbD j = false) : (bytes.set i.val b)[j] = 0#8 := by
  rw [getLsbD_or_one_shiftLeft, Bool.or_eq_false_iff, decide_eq_false_iff_not] at hj
  obtain ⟨hne, hbit⟩ := hj
  rw [vector_getElem_set, if_neg hne, h j hbit]

theorem inv_loadKeyByte (h : Inv p c) (hphase : c.phase = .unconf) (i : Fin 16) (b : Byte) :
    Inv p (c.loadKeyByte i b) :=
  { h with
    ready_complete := fun hr => by simp [hphase] at hr
    feistel_schedule := fun hr => by simp [hphase] at hr
    idle_chain := fun ch => by simpa using h.idle_chain ch
    unloaded_zero := ⟨unloaded_zero_set i b h.unloaded_zero.1, h.unloaded_zero.2⟩ }

theorem inv_loadIvByte (h : Inv p c) (hphase : c.phase = .unconf) (i : Fin 8) (b : Byte) :
    Inv p (c.loadIvByte i b) :=
  { h with
    ready_complete := fun hr => by simp [hphase] at hr
    idle_chain := fun ch => by simpa using h.idle_chain ch
    unloaded_zero := ⟨h.unloaded_zero.1, unloaded_zero_set i b h.unloaded_zero.2⟩ }

/-- `INIT` with its checks passed (R133). -/
theorem inv_constructed {v : Variant} (h : Inv p c) (hphase : c.phase = .unconf) (hv : v = .placeholder ∨ v = .feistel)
    (hmasks : c.kmask = 0xFFFF#16 ∧ c.ivmask = 0xFF#8) : Inv p (c.constructed p v) :=
  { h with
    ready_complete := fun _ => hmasks
    ready_variant := fun _ => hv
    feistel_schedule := fun _ hf => if_pos hf
    unready_channels := fun hr => absurd rfl hr
    unready_schedule := fun hr => absurd rfl hr
    idle_chain := fun ch => by simpa using h.idle_chain ch
    fault_len := nofun
    unready_variant := fun hr => absurd rfl hr
    placeholder_schedule := fun hp => by
      have hne : v ≠ .feistel := by rintro rfl; cases hp
      rw [constructed_rk, if_neg hne, h.unready_schedule (by simp [hphase])] }

/-- A message command in `READY` (R110 to R112). -/
theorem inv_setChan {ch : Channel} {x : ChanCtx} (h : Inv p c) (hphase : c.phase = .ready)
    (hx : x.active = false → x.chain = 0#64) : Inv p (c.setChan ch x) where
  ready_complete := by simpa using h.ready_complete
  ready_variant := by simpa using h.ready_variant
  feistel_schedule := by simpa using h.feistel_schedule
  unready_channels hr := by simp [hphase] at hr
  unready_schedule := by simpa using h.unready_schedule
  idle_chain k := by
    by_cases hk : k = ch
    · rw [hk, setChan_chan_same]
      exact hx
    · rw [setChan_chan_other c ch x hk]
      exact h.idle_chain k
  errs_top := by simpa using h.errs_top
  fault_len hf := by simp [hphase] at hf
  unready_variant := by simpa using h.unready_variant
  placeholder_schedule := by simpa using h.placeholder_schedule
  unloaded_zero := by simpa using h.unloaded_zero

end keeps

/-! ### The checks passed -/

section passed

variable {c : CoreState} {ch : Channel}

theorem refusal_init_eq_none {v : Variant} (h : refusal (.init v) c = none) :
    c.phase = .unconf ∧ (v = .placeholder ∨ v = .feistel) ∧ c.kmask = 0xFFFF#16 ∧ c.ivmask = 0xFF#8 := by
  obtain ⟨hphase, hrest⟩ := Option.or_eq_none_iff.mp h
  obtain ⟨hv, hl⟩ := Option.or_eq_none_iff.mp hrest
  exact ⟨phaseRefusal_eq_none hphase, variantRefusal_eq_none hv, lengthRefusal_eq_none hl⟩

theorem refusal_start_eq_none (h : refusal (.start ch) c = none) :
    c.phase = .ready ∧ (c.chan ch).active = false := by
  obtain ⟨hphase, hbusy⟩ := Option.or_eq_none_iff.mp h
  exact ⟨phaseRefusal_eq_none hphase, busyRefusal_eq_none hbusy⟩

theorem refusal_endMsg_eq_none (h : refusal (.endMsg ch) c = none) :
    c.phase = .ready ∧ (c.chan ch).active = true := by
  obtain ⟨hphase, hidle⟩ := Option.or_eq_none_iff.mp h
  exact ⟨phaseRefusal_eq_none hphase, idleRefusal_eq_none hidle⟩

/-- `BYTE` has the checks of `END`. -/
theorem refusal_byte_eq_none {b : Byte} (h : refusal (.byte ch b) c = none) :
    c.phase = .ready ∧ (c.chan ch).active = true := refusal_endMsg_eq_none h

/-- Only `INIT` in `UNCONF` is refused with `E_LEN` (R155). -/
theorem eq_init_of_refusal_len {i : Instr} (h : refusal i c = some .len) :
    c.phase = .unconf ∧ ∃ v, i = .init v ∧ (v = .placeholder ∨ v = .feistel) ∧
      (c.kmask ≠ 0xFFFF#16 ∨ c.ivmask ≠ 0xFF#8) := by
  obtain ⟨hphase, hi, hmasks⟩ := decodedRefusal_eq_len_iff.mp ((decodedRefusal_command i c).trans h)
  rcases hi with hi | hi
  · exact ⟨hphase, _, Decoded.command.inj hi, .inl rfl, hmasks⟩
  · exact ⟨hphase, _, Decoded.command.inj hi, .inr rfl, hmasks⟩

end passed

/-! ### Commands, steps and runs -/

/-- A performed command of the machine with any parameters keeps the invariants. -/
theorem inv_effect {p : Params} {i : Instr} {c d : CoreState} {a : Byte} (hr : refusal i c = none)
    (he : effect p i c = some (d, a)) (h : Inv p c) : Inv p d := by
  cases i with
  | byte ch b =>
    obtain ⟨hphase, hact⟩ := refusal_byte_eq_none hr
    obtain ⟨blk, -, hd⟩ := Option.map_eq_some_iff.mp he
    obtain ⟨rfl, -⟩ := Prod.mk.inj hd
    exact inv_setChan h hphase fun hidle => by simp [hact] at hidle
  | ldk k b =>
    obtain ⟨rfl, -⟩ := Prod.mk.inj (Option.some.inj he)
    exact inv_loadKeyByte h (phaseRefusal_eq_none hr) k b
  | ldiv k b =>
    obtain ⟨rfl, -⟩ := Prod.mk.inj (Option.some.inj he)
    exact inv_loadIvByte h (phaseRefusal_eq_none hr) k b
  | init v =>
    obtain ⟨hphase, hv, hmasks⟩ := refusal_init_eq_none hr
    obtain ⟨rfl, -⟩ := Prod.mk.inj (Option.some.inj he)
    exact inv_constructed h hphase hv hmasks
  | start ch =>
    obtain ⟨rfl, -⟩ := Prod.mk.inj (Option.some.inj he)
    exact inv_setChan h (refusal_start_eq_none hr).1 nofun
  | endMsg ch =>
    obtain ⟨rfl, -⟩ := Prod.mk.inj (Option.some.inj he)
    exact inv_setChan h (refusal_endMsg_eq_none hr).1 fun _ => rfl
  | nop =>
    obtain ⟨rfl, -⟩ := Prod.mk.inj (Option.some.inj he)
    exact h
  | rdst r =>
    obtain ⟨rfl, -⟩ := Prod.mk.inj (Option.some.inj he)
    exact h
  | reset =>
    obtain ⟨rfl, -⟩ := Prod.mk.inj (Option.some.inj he)
    exact resetMeetsTheInvariant p

/-- `exec_cases` for the machine with any parameters. -/
theorem execWith_cases {p : Params} {i : Instr} {s t : State} (h : execWith p i s = .next t) :
    (∃ e, refusal i s.core = some e ∧ t = refuse e s) ∨
    (refusal i s.core = none ∧ ∃ core data, effect p i s.core = some (core, data) ∧ t = after core data s) := by
  cases i with
  | init v =>
    rcases unlessRefused_cases h with hrefused | ⟨hr, ht⟩
    · exact .inl hrefused
    · exact .inr ⟨hr, _, _, rfl, (Host.Outcome.next.inj ht).symm⟩
  | _ => exact exec_cases h

theorem execWith_default (i : Instr) (s : State) : execWith defaultParams i s = exec i s := by cases i <;> rfl

theorem inv_execWith {p : Params} {i : Instr} {s t : State} (h : Inv p s.core) (ht : execWith p i s = .next t) :
    Inv p t.core := by
  rcases execWith_cases ht with ⟨e, hr, rfl⟩ | ⟨hr, core, data, he, rfl⟩
  · exact inv_refused h fun hlen => (eq_init_of_refusal_len (hlen ▸ hr)).1
  · exact inv_effect hr he h

/-- Settles O30: `inv_execWith`, and `execWith_default`. -/
theorem invariantHoldsForEveryParameterChoice : Obligations.InvariantHoldsForEveryParameterChoice :=
  ⟨fun _ _ _ _ => inv_execWith, execWith_default⟩

theorem inv_exec {i : Instr} {s t : State} (h : Inv defaultParams s.core) (ht : exec i s = .next t) :
    Inv defaultParams t.core := inv_execWith h ((execWith_default i s).trans ht)

/-- Settles O29: a step waits, runs a command (`inv_exec`) or refuses an illegal word (`inv_refused`). -/
theorem everyStepKeepsTheInvariant : Obligations.EveryStepKeepsTheInvariant := by
  intro s t h ht
  rcases step_cases ht with ⟨-, rfl⟩ | ⟨w, rest, -, ⟨i, -, hi⟩ | ⟨why, -, rfl⟩⟩
  · exact h
  · exact inv_exec (s := { s with pending := rest }) h hi
  · exact inv_refused h nofun

/-- Settles O33: the invariants at reset, kept by every step. -/
theorem reachableStatesMeetTheInvariant : Obligations.ReachableStatesMeetTheInvariant := by
  rintro s ⟨words, n, hrun⟩
  have hreset : Inv defaultParams { State.reset with pending := words }.core := resetMeetsTheInvariant defaultParams
  exact run_keeps (P := fun s => Inv defaultParams s.core) everyStepKeepsTheInvariant hreset hrun

/-! ### Nothing stops -/

theorem inv_not_blockless {p : Params} {c : CoreState} (h : Inv p c) (hphase : c.phase = .ready) :
    ¬ (c.var = .ref ∨ c.var = .reserved) := by
  rcases h.ready_variant hphase with hv | hv <;> simp [hv]

/-- Settles O20: with the checks of `BYTE` passed what decides is the block function, which has no case for exactly those
variants (`blockFn_eq_none`). -/
theorem byteStopsOnlyWithoutABlockFunction : Obligations.ByteStopsOnlyWithoutABlockFunction := by
  refine ⟨fun c b s hphase hact => ?_, fun p c => inv_not_blockless⟩
  rw [← blockFn_eq_none]
  cases hb : s.core.blockFn with
  | none => simp [exec, execByte, hphase, hact, idleRefusal, hb]
  | some blk => simp [exec_byte_active hphase hact hb]

/-- The effect of a command whose checks pass has no case only for `BYTE` without a block function. -/
theorem effect_ne_none {p : Params} {i : Instr} {c : CoreState} (h : Inv defaultParams c) (hr : refusal i c = none) :
    effect p i c ≠ none := by
  cases i with
  | byte ch b =>
    have hb : c.blockFn ≠ none := mt blockFn_eq_none.mp (inv_not_blockless h (refusal_byte_eq_none hr).1)
    simpa [effect] using hb
  | _ => nofun

theorem exec_next_of_inv (i : Instr) {s : State} (h : Inv defaultParams s.core) : ∃ t, exec i s = .next t := by
  cases hr : refusal i s.core with
  | some e => exact ⟨_, by rw [exec_eq, hr, unlessRefused_some]⟩
  | none =>
    obtain ⟨da, he⟩ := Option.ne_none_iff_exists'.mp (effect_ne_none (p := defaultParams) h hr)
    exact ⟨_, exec_of_effect hr he⟩

theorem step_next_of_inv {s : State} (h : Inv defaultParams s.core) : ∃ t, step s = .next t := by
  cases hp : s.pending with
  | nil => exact ⟨s, step_idle hp⟩
  | cons w rest =>
    cases hd : decode w with
    | illegal why => exact ⟨_, step_illegal hp hd⟩
    | command i =>
      rw [step_command hp hd]
      exact exec_next_of_inv i h

/-- Settles O32: `step_next_of_inv`, and the next state meets the invariants again. -/
theorem noRunStops : Obligations.NoRunStops := by
  intro s h
  refine neverStops_of_step (P := fun s => Inv defaultParams s.core) (fun s h => ?_) h
  obtain ⟨t, ht⟩ := step_next_of_inv h
  exact ⟨t, ht, everyStepKeepsTheInvariant s t h ht⟩

end Sys2Proof.Proofs
end

section
/-! Who writes what (10_state.md R20 to R27; 20_memory.md R48; 42_session_control.md R136, R137): the owners of each field,
the moves of `PHASE`, and the session of a `READY` core, which no command but `RESET` changes. -/

namespace Sys2Proof.Proofs

open Sys2Proof.Machine Sys2Proof.Safety

/-! ### The session in `READY` (R137) -/

@[simp] theorem sessionOf_setChan (c : CoreState) (ch : Channel) (x : ChanCtx) :
    sessionOf (c.setChan ch x) = sessionOf c := by simp [sessionOf]

theorem sessionOf_refused (c : CoreState) {e : ErrCode} (he : e ≠ .len) : sessionOf (c.refused e) = sessionOf c := by
  simp [sessionOf, he]

theorem phase_eq_of_sessionOf {c d : CoreState} (h : sessionOf c = sessionOf d) : c.phase = d.phase :=
  congrArg Session.phase h

/-- A command whose checks pass in `READY` leaves the session alone, unless it is `RESET`. -/
theorem effect_session {p : Params} {i : Instr} {c d : CoreState} {a : Byte} (hphase : c.phase = .ready)
    (hr : refusal i c = none) (hi : i ≠ .reset) (he : effect p i c = some (d, a)) : sessionOf d = sessionOf c := by
  cases i with
  | reset => exact absurd rfl hi
  | ldk k b => simpa [hphase] using phaseRefusal_eq_none hr
  | ldiv k b => simpa [hphase] using phaseRefusal_eq_none hr
  | init v => simpa [hphase] using (refusal_init_eq_none hr).1
  | byte ch b =>
    obtain ⟨blk, -, hd⟩ := Option.map_eq_some_iff.mp he
    rw [← (Prod.mk.inj hd).1, sessionOf_setChan]
  | _ =>
    obtain ⟨rfl, -⟩ := Prod.mk.inj (Option.some.inj he)
    simp

/-- No command is refused with `E_LEN` in `READY`. -/
theorem refusal_ne_len {i : Instr} {c : CoreState} {e : ErrCode} (hphase : c.phase = .ready)
    (hr : refusal i c = some e) : e ≠ .len := by
  rintro rfl
  simpa [hphase] using (eq_init_of_refusal_len hr).1

theorem exec_session {i : Instr} {s t : State} (hphase : s.core.phase = .ready) (hi : i ≠ .reset)
    (h : exec i s = .next t) : sessionOf t.core = sessionOf s.core := by
  rcases exec_cases h with ⟨e, hr, rfl⟩ | ⟨hr, d, a, he, rfl⟩
  · exact sessionOf_refused s.core (refusal_ne_len hphase hr)
  · exact effect_session hphase hr hi he

theorem exec_pending {i : Instr} {s t : State} (h : exec i s = .next t) : t.pending = s.pending := by
  rcases exec_cases h with ⟨e, -, rfl⟩ | ⟨-, d, a, -, rfl⟩ <;> rfl

/-- A step in `READY` leaves the session alone, and takes no word but the first. -/
theorem step_session {s t : State} (hphase : s.core.phase = .ready) (hw : ∀ w ∈ s.pending, ¬ isReset w)
    (h : step s = .next t) : sessionOf t.core = sessionOf s.core ∧ ∀ w ∈ t.pending, ¬ isReset w := by
  rcases step_cases h with ⟨-, rfl⟩ | ⟨w, rest, hp, hcase⟩
  · exact ⟨rfl, hw⟩
  · rw [hp, List.forall_mem_cons] at hw
    obtain ⟨hfirst, hrest⟩ := hw
    rcases hcase with ⟨i, hd, hi⟩ | ⟨why, -, rfl⟩
    · have hreset : i ≠ .reset := by rintro rfl; exact hfirst hd
      exact ⟨exec_session (s := { s with pending := rest }) hphase hreset hi, exec_pending hi ▸ hrest⟩
    · exact ⟨sessionOf_refused s.core (by decide), hrest⟩

/-- Settles O34: the session before, and no `RESET` among the words to come, are kept by every step. -/
theorem sessionIsImmutable : Obligations.SessionIsImmutable := by
  intro n s t hphase hw hrun
  refine (run_keeps (P := fun u => sessionOf u.core = sessionOf s.core ∧ ∀ w ∈ u.pending, ¬ isReset w)
    (fun u v hu huv => ?_) ⟨rfl, hw⟩ hrun).1
  obtain ⟨hsession, hwords⟩ := hu
  obtain ⟨hsession', hwords'⟩ := step_session ((phase_eq_of_sessionOf hsession).trans hphase) hwords huv
  exact ⟨hsession'.trans hsession, hwords'⟩

/-! ### The moves of `PHASE` (R136) -/

theorem phase_refused_of_ne {c : CoreState} {e : ErrCode} (h : (c.refused e).phase ≠ c.phase) :
    e = .len ∧ (c.refused e).phase = .fault := by
  by_cases he : e = .len
  · exact ⟨he, by simp [he]⟩
  · exact absurd (by simp [he]) h

/-- A performed command that moves `PHASE` is `RESET`, or `INIT`, which moves it to `READY`. -/
theorem effect_phase {p : Params} {i : Instr} {c d : CoreState} {a : Byte} (he : effect p i c = some (d, a))
    (h : d.phase ≠ c.phase) : (i = .reset ∧ d.phase = .unconf) ∨ ∃ v, i = .init v ∧ d.phase = .ready := by
  cases i with
  | byte ch b =>
    obtain ⟨blk, -, hd⟩ := Option.map_eq_some_iff.mp he
    rw [← (Prod.mk.inj hd).1, setChan_phase] at h
    exact absurd rfl h
  | reset =>
    obtain ⟨rfl, -⟩ := Prod.mk.inj (Option.some.inj he)
    exact .inl ⟨rfl, rfl⟩
  | init v =>
    obtain ⟨rfl, -⟩ := Prod.mk.inj (Option.some.inj he)
    exact .inr ⟨v, rfl, rfl⟩
  | _ =>
    obtain ⟨rfl, -⟩ := Prod.mk.inj (Option.some.inj he)
    exact absurd (by simp) h

/-- Settles O35: a refusal moves `PHASE` if it is `E_LEN`'s (`eq_init_of_refusal_len`), a performed command by
`effect_phase`. -/
theorem onlyInitAndResetMoveThePhase : Obligations.OnlyInitAndResetMoveThePhase := by
  intro s t w rest hp h hne
  cases hd : decode w with
  | illegal why =>
    rw [step_illegal hp hd] at h
    obtain rfl := Host.Outcome.next.inj h
    exact absurd rfl hne
  | command i =>
    rw [step_command hp hd] at h
    rcases exec_cases h with ⟨e, hr, rfl⟩ | ⟨hr, d, a, he, rfl⟩
    · obtain ⟨rfl, hfault⟩ := phase_refused_of_ne hne
      obtain ⟨hphase, v, rfl, hv, hmasks⟩ := eq_init_of_refusal_len hr
      exact .inr ⟨v, rfl, hv, hphase, .inr ⟨hmasks, hfault⟩⟩
    · rcases effect_phase he hne with ⟨rfl, hunconf⟩ | ⟨v, rfl, hready⟩
      · exact .inl ⟨rfl, hunconf⟩
      · obtain ⟨hphase, hv, hk, hiv⟩ := refusal_init_eq_none hr
        exact .inr ⟨v, rfl, hv, hphase, .inl ⟨hk, hiv, hready⟩⟩

/-! ### The owners of each field (R20 to R27) -/

/-- What a command may change when it leaves the core `d`, apart from `ERRS`: each field by its owners alone. -/
def OwnersOnly (i : Instr) (c d : CoreState) : Prop :=
  ((d.key ≠ c.key ∨ d.kmask ≠ c.kmask) → c.phase = .unconf ∧ ∃ k b, i = .ldk k b) ∧
  ((d.iv ≠ c.iv ∨ d.ivmask ≠ c.ivmask) → c.phase = .unconf ∧ ∃ k b, i = .ldiv k b) ∧
  ((d.var ≠ c.var ∨ d.phase ≠ c.phase) → c.phase = .unconf ∧ ∃ v, i = .init v) ∧
  (d.rk ≠ c.rk → c.phase = .unconf ∧ i = .init .feistel) ∧
  ∀ ch, ((d.chan ch).active ≠ (c.chan ch).active → c.phase = .ready ∧ (i = .start ch ∨ i = .endMsg ch)) ∧
    ((d.chan ch).chain ≠ (c.chan ch).chain →
      c.phase = .ready ∧ (i = .start ch ∨ i = .endMsg ch ∨ ∃ b, i = .byte ch b)) ∧
    ((d.chan ch).dout ≠ (c.chan ch).dout → c.phase = .ready ∧ ∃ b, i = .byte ch b)

/-- A refusal writes `PHASE`, for `INIT` in `UNCONF` alone, and nothing else but `ERRS`. -/
theorem ownersOnly_refused {i : Instr} {c : CoreState} {e : ErrCode} (hr : refusal i c = some e) :
    OwnersOnly i c (c.refused e) := by
  have hphase (h : (c.refused e).phase ≠ c.phase) : c.phase = .unconf ∧ ∃ v, i = .init v := by
    obtain ⟨rfl, -⟩ := phase_refused_of_ne h
    obtain ⟨hunconf, v, hi, -⟩ := eq_init_of_refusal_len hr
    exact ⟨hunconf, v, hi⟩
  exact ⟨by simp, by simp, fun h => hphase (h.resolve_left (by simp)), by simp, by simp⟩

/-- A message command in `READY` writes its own channel's context. -/
theorem ownersOnly_setChan {i : Instr} {c : CoreState} {ch : Channel} {x : ChanCtx} (hphase : c.phase = .ready)
    (hactive : x.active ≠ (c.chan ch).active → i = .start ch ∨ i = .endMsg ch)
    (hchain : i = .start ch ∨ i = .endMsg ch ∨ ∃ b, i = .byte ch b)
    (hdout : x.dout ≠ (c.chan ch).dout → ∃ b, i = .byte ch b) : OwnersOnly i c (c.setChan ch x) := by
  refine ⟨by simp, by simp, by simp, by simp, fun k => ?_⟩
  by_cases hk : k = ch
  · subst hk
    rw [setChan_chan_same]
    exact ⟨fun h => ⟨hphase, hactive h⟩, fun _ => ⟨hphase, hchain⟩, fun h => ⟨hphase, hdout h⟩⟩
  · simp [setChan_chan_other c ch x hk]

theorem ownersOnly_effect {p : Params} {i : Instr} {c d : CoreState} {a : Byte} (hi : i ≠ .reset)
    (hr : refusal i c = none) (he : effect p i c = some (d, a)) : OwnersOnly i c d := by
  cases i with
  | reset => exact absurd rfl hi
  | byte ch b =>
    obtain ⟨hphase, -⟩ := refusal_byte_eq_none hr
    obtain ⟨blk, -, hd⟩ := Option.map_eq_some_iff.mp he
    obtain ⟨rfl, -⟩ := Prod.mk.inj hd
    exact ownersOnly_setChan hphase (absurd rfl) (.inr (.inr ⟨b, rfl⟩)) fun _ => ⟨b, rfl⟩
  | start ch =>
    obtain ⟨hphase, -⟩ := refusal_start_eq_none hr
    obtain ⟨rfl, -⟩ := Prod.mk.inj (Option.some.inj he)
    exact ownersOnly_setChan hphase (fun _ => .inl rfl) (.inl rfl) (absurd rfl)
  | endMsg ch =>
    obtain ⟨hphase, -⟩ := refusal_endMsg_eq_none hr
    obtain ⟨rfl, -⟩ := Prod.mk.inj (Option.some.inj he)
    exact ownersOnly_setChan hphase (fun _ => .inr rfl) (.inr (.inl rfl)) (absurd rfl)
  | init v =>
    obtain ⟨hphase, -⟩ := refusal_init_eq_none hr
    obtain ⟨rfl, -⟩ := Prod.mk.inj (Option.some.inj he)
    refine ⟨by simp, by simp, fun _ => ⟨hphase, v, rfl⟩, fun hne => ⟨hphase, ?_⟩, by simp⟩
    by_contra hv
    exact hne (if_neg fun hf => hv (congrArg Instr.init hf))
  | ldk k b =>
    have hphase := phaseRefusal_eq_none hr
    obtain ⟨rfl, -⟩ := Prod.mk.inj (Option.some.inj he)
    simp [OwnersOnly, hphase]
  | ldiv k b =>
    have hphase := phaseRefusal_eq_none hr
    obtain ⟨rfl, -⟩ := Prod.mk.inj (Option.some.inj he)
    simp [OwnersOnly, hphase]
  | _ =>
    obtain ⟨rfl, -⟩ := Prod.mk.inj (Option.some.inj he)
    simp [OwnersOnly]

/-- Settles O36: `ownersOnly_refused`, `ownersOnly_effect`; `ERRS` by `effect_errs`, a refusal's status not being 0. -/
theorem onlyOwnersWriteAField : Obligations.OnlyOwnersWriteAField := by
  intro i s t h hi
  have howners : OwnersOnly i s.core t.core ∧
      (t.core.errs ≠ s.core.errs → ∃ r : RespWord, t.responses = s.responses ++ [r] ∧ respStatus r ≠ 0#4) := by
    rcases exec_cases h with ⟨e, hr, rfl⟩ | ⟨hr, d, a, he, rfl⟩
    · refine ⟨ownersOnly_refused hr, fun _ => ⟨_, refuse_responses s e, ?_⟩⟩
      rw [respStatus_respWord]
      cases e <;> decide
    · exact ⟨ownersOnly_effect hi hr he, fun hne => absurd (effect_errs hi he) hne⟩
  obtain ⟨⟨hkey, hiv, hphase, hrk, hchan⟩, herrs⟩ := howners
  exact ⟨hkey, hiv, hphase, hrk, hchan, herrs⟩

/-! ### Repeated reads and loads (R48) -/

theorem loadKeyByte_loadKeyByte (c : CoreState) (k : Fin 16) (b : Byte) :
    (c.loadKeyByte k b).loadKeyByte k b = c.loadKeyByte k b := by
  simp [CoreState.loadKeyByte, BitVec.or_assoc]

theorem loadIvByte_loadIvByte (c : CoreState) (k : Fin 8) (b : Byte) :
    (c.loadIvByte k b).loadIvByte k b = c.loadIvByte k b := by
  simp [CoreState.loadIvByte, BitVec.or_assoc]

theorem exec_second_of_execAll {i j : Instr} {s t u : State} (h : exec i s = .next t)
    (hu : execAll [i, j] s = .next u) : exec j t = .next u := by
  rw [execAll_cons_next _ h, execAll] at hu
  cases hj : exec j t <;> simp_all

/-- Settles O38: `exec_rdst` twice; a load stores the same byte and sets the same bit again. -/
theorem readsAndLoadsRepeat : Obligations.ReadsAndLoadsRepeat := by
  refine ⟨fun r s => ⟨respWord 0#4 (s.core.statusReg r), ?_⟩, fun i s t u hi hphase ht hu => ?_⟩
  · rw [execAll_cons_next _ exec_rdst, execAll_cons_next _ exec_rdst, execAll_nil]
    simp [after, respond]
  · have hagain := exec_second_of_execAll ht hu
    rcases hi with ⟨k, b, rfl⟩ | ⟨k, b, rfl⟩
    · obtain rfl := Host.Outcome.next.inj ((exec_ldk_unconf hphase).symm.trans ht)
      obtain rfl := Host.Outcome.next.inj
        ((exec_ldk_unconf (s := after (s.core.loadKeyByte k b) 0#8 s) hphase).symm.trans hagain)
      exact loadKeyByte_loadKeyByte s.core k b
    · obtain rfl := Host.Outcome.next.inj ((exec_ldiv_unconf hphase).symm.trans ht)
      obtain rfl := Host.Outcome.next.inj
        ((exec_ldiv_unconf (s := after (s.core.loadIvByte k b) 0#8 s) hphase).symm.trans hagain)
      exact loadIvByte_loadIvByte s.core k b

end Sys2Proof.Proofs
end

section
/-! The two channels (20_memory.md R50): a message command reads the session and its own channel's context and writes that
context, so the streams of the two channels do not see each other. -/

namespace Sys2Proof.Proofs

open Sys2Proof.Machine Sys2Proof.Safety

theorem blockFn_eq_of_sessionOf {c d : CoreState} (h : sessionOf c = sessionOf d) : c.blockFn = d.blockFn := by
  simp only [sessionOf, Session.mk.injEq] at h
  obtain ⟨-, hvar, hkey, -, hrk⟩ := h
  rw [CoreState.blockFn, CoreState.blockFn, hvar, hkey, hrk]

theorem iv_eq_of_sessionOf {c d : CoreState} (h : sessionOf c = sessionOf d) : c.iv = d.iv := congrArg Session.iv h

/-! ### One message command -/

section message

variable {p : Params} {i : Instr} {ch : Channel} {c d c' d' : CoreState} {a a' : Byte}

/-- What a message command writes: its channel's context. -/
theorem effect_message_setChan (hi : channelOfCommand i = some ch) (he : effect p i c = some (d, a)) :
    ∃ x, d = c.setChan ch x := by
  cases i with
  | byte k b =>
    obtain rfl := Option.some.inj hi
    obtain ⟨blk, -, hd⟩ := Option.map_eq_some_iff.mp he
    exact ⟨_, (Prod.mk.inj hd).1.symm⟩
  | start k =>
    obtain rfl := Option.some.inj hi
    exact ⟨_, (Prod.mk.inj (Option.some.inj he)).1.symm⟩
  | endMsg k =>
    obtain rfl := Option.some.inj hi
    exact ⟨_, (Prod.mk.inj (Option.some.inj he)).1.symm⟩
  | _ => cases hi

/-- What the checks of a message command read: the phase and its channel's context. -/
theorem refusal_message_congr (hi : channelOfCommand i = some ch) (hs : sessionOf c = sessionOf c')
    (hx : c.chan ch = c'.chan ch) : refusal i c = refusal i c' := by
  have hphase (n : Option Phase) : phaseRefusal n c = phaseRefusal n c' := by
    rw [phaseRefusal, phaseRefusal, phase_eq_of_sessionOf hs]
  cases i with
  | start k => obtain rfl := Option.some.inj hi; rw [refusal, refusal, hphase, hx]
  | byte k b => obtain rfl := Option.some.inj hi; rw [refusal, refusal, hphase, hx]
  | endMsg k => obtain rfl := Option.some.inj hi; rw [refusal, refusal, hphase, hx]
  | _ => cases hi

/-- What the effect of a message command reads: the session and its channel's context. -/
theorem effect_message_congr (hi : channelOfCommand i = some ch) (hs : sessionOf c = sessionOf c')
    (hx : c.chan ch = c'.chan ch) (he : effect p i c = some (d, a)) (he' : effect p i c' = some (d', a')) :
    d.chan ch = d'.chan ch ∧ a = a' := by
  cases i with
  | byte k b =>
    obtain rfl := Option.some.inj hi
    rw [effect, ← blockFn_eq_of_sessionOf hs] at he'
    obtain ⟨blk, hblk, hd⟩ := Option.map_eq_some_iff.mp he
    obtain ⟨blk', hblk', hd'⟩ := Option.map_eq_some_iff.mp he'
    obtain rfl := Option.some.inj (hblk.symm.trans hblk')
    rw [← (Prod.mk.inj hd).1, ← (Prod.mk.inj hd').1, ← (Prod.mk.inj hd).2, ← (Prod.mk.inj hd').2]
    simp [hx]
  | start k =>
    obtain rfl := Option.some.inj hi
    obtain ⟨rfl, rfl⟩ := Prod.mk.inj (Option.some.inj he)
    obtain ⟨rfl, rfl⟩ := Prod.mk.inj (Option.some.inj he')
    simp [hx, iv_eq_of_sessionOf hs]
  | endMsg k =>
    obtain rfl := Option.some.inj hi
    obtain ⟨rfl, rfl⟩ := Prod.mk.inj (Option.some.inj he)
    obtain ⟨rfl, rfl⟩ := Prod.mk.inj (Option.some.inj he')
    simp [hx]
  | _ => cases hi

end message

/-- No message command is refused with `E_LEN`. -/
theorem refusal_message_ne_len {i : Instr} {ch : Channel} {c : CoreState} {e : ErrCode}
    (hi : channelOfCommand i = some ch) (hr : refusal i c = some e) : e ≠ .len := by
  rintro rfl
  obtain ⟨-, v, rfl, -⟩ := eq_init_of_refusal_len hr
  cases hi

section exec

variable {i : Instr} {ch k : Channel} {s s' t t' : State}

/-- What a message command leaves unchanged: the other channel, the session and the masks. -/
theorem exec_message_frame (hi : channelOfCommand i = some ch) (h : exec i s = .next t) (hk : k ≠ ch) :
    t.core.chan k = s.core.chan k ∧ sessionOf t.core = sessionOf s.core ∧ t.core.kmask = s.core.kmask ∧
      t.core.ivmask = s.core.ivmask := by
  rcases exec_cases h with ⟨e, hr, rfl⟩ | ⟨-, d, a, he, rfl⟩
  · exact ⟨refused_chan _ _ k, sessionOf_refused _ (refusal_message_ne_len hi hr), rfl, rfl⟩
  · obtain ⟨x, rfl⟩ := effect_message_setChan hi he
    exact ⟨setChan_chan_other _ ch x hk, sessionOf_setChan _ ch x, setChan_kmask _ ch x, setChan_ivmask _ ch x⟩

/-- What a message command answers and does to its channel, from two states that agree on what it reads. -/
theorem exec_message_congr (hi : channelOfCommand i = some ch) (hs : sessionOf s.core = sessionOf s'.core)
    (hx : s.core.chan ch = s'.core.chan ch) (h : exec i s = .next t) (h' : exec i s' = .next t') :
    t.core.chan ch = t'.core.chan ch ∧
      t.responses.drop s.responses.length = t'.responses.drop s'.responses.length := by
  rcases exec_cases_both (refusal_message_congr hi hs hx) h h' with ⟨e, rfl, rfl⟩ | ⟨d, a, d', a', hd, hd', rfl, rfl⟩
  · simp [hx]
  · obtain ⟨hchan, rfl⟩ := effect_message_congr hi hs hx hd hd'
    simp [hchan]

end exec

/-- Settles O39: `exec_message_frame`, `exec_message_congr`. -/
theorem messageCommandsKeepToTheirChannel : Obligations.MessageCommandsKeepToTheirChannel := by
  intro i c d s s' t t' hi hd hs hx h h'
  obtain ⟨hother, hsession, hk, hiv⟩ := exec_message_frame hi h hd
  obtain ⟨hchan, hresp⟩ := exec_message_congr hi hs hx h h'
  exact ⟨hother, hsession, hk, hiv, hchan, hresp⟩

/-! ### Streams -/

/-- `NOP` and `RDST` leave every channel alone. -/
theorem exec_nonmessage_chan {i : Instr} {s t : State} (hstream : isStreamCommand i = true)
    (hi : channelOfCommand i = none) (h : exec i s = .next t) (k : Channel) : t.core.chan k = s.core.chan k := by
  rcases exec_cases h with ⟨e, -, rfl⟩ | ⟨-, d, a, he, rfl⟩
  · exact refused_chan _ _ k
  · cases i with
    | nop => obtain ⟨rfl, -⟩ := Prod.mk.inj (Option.some.inj he); rfl
    | rdst r => obtain ⟨rfl, -⟩ := Prod.mk.inj (Option.some.inj he); rfl
    | start c => cases hi
    | byte c b => cases hi
    | endMsg c => cases hi
    | _ => cases hstream

theorem ne_reset_of_isStreamCommand {i : Instr} (h : isStreamCommand i = true) : i ≠ .reset := by
  rintro rfl
  cases h

/-- A `READY` state that meets the invariants, and a command of a stream: it answers, and leaves such a state with the same
session. -/
theorem exec_stream {i : Instr} {s : State} (hi : isStreamCommand i = true) (hinv : Inv defaultParams s.core)
    (hphase : s.core.phase = .ready) : ∃ t, exec i s = .next t ∧ Inv defaultParams t.core ∧
      t.core.phase = .ready ∧ sessionOf t.core = sessionOf s.core := by
  obtain ⟨t, ht⟩ := exec_next_of_inv i hinv
  have hsession := exec_session hphase (ne_reset_of_isStreamCommand hi) ht
  exact ⟨t, ht, inv_exec hinv ht, (phase_eq_of_sessionOf hsession).trans hphase, hsession⟩

theorem streamOf_cons_other {c d : Channel} {i : Instr} (cmds : List Instr) (hi : channelOfCommand i = some d)
    (hd : d ≠ c) : streamOf c (i :: cmds) = streamOf c cmds := by
  simp [streamOf, hi, hd]

theorem streamOf_cons_own {c : Channel} {i : Instr} (cmds : List Instr)
    (hi : channelOfCommand i = none ∨ channelOfCommand i = some c) :
    streamOf c (i :: cmds) = i :: streamOf c cmds := by
  rcases hi with hi | hi <;> simp [streamOf, hi]

theorem channelResponses_cons {i : Instr} {s t : State} (c : Channel) (cmds : List Instr) (h : exec i s = .next t) :
    channelResponses c (i :: cmds) s =
      (if channelOfCommand i = some c then t.responses.drop s.responses.length else []) ++
        channelResponses c cmds t := by
  simp only [channelResponses, h]

/-- What channel `c` sees of two runs: a stream from one state, and the same stream without the other channel's commands
from a state with the same session and the same context of `c`. -/
theorem execAll_streamOf (c : Channel) (cmds : List Instr) (hcmds : ∀ i ∈ cmds, isStreamCommand i = true) :
    ∀ s s' : State, Inv defaultParams s.core → Inv defaultParams s'.core → s.core.phase = .ready →
      sessionOf s.core = sessionOf s'.core → s.core.chan c = s'.core.chan c →
      ∃ t u, execAll cmds s = .next t ∧ execAll (streamOf c cmds) s' = .next u ∧ t.core.chan c = u.core.chan c ∧
        channelResponses c cmds s = channelResponses c (streamOf c cmds) s' := by
  induction cmds with
  | nil => exact fun s s' _ _ _ _ hx => ⟨s, s', rfl, rfl, hx, rfl⟩
  | cons i cmds ih =>
    intro s s' hinv hinv' hphase hs hx
    obtain ⟨hi, hcmds⟩ := List.forall_mem_cons.mp hcmds
    obtain ⟨t, ht, htinv, htphase, htsession⟩ := exec_stream hi hinv hphase
    rw [execAll_cons_next cmds ht, channelResponses_cons c cmds ht]
    by_cases hother : ∃ d, channelOfCommand i = some d ∧ d ≠ c
    · obtain ⟨d, hd, hne⟩ := hother
      have hchan : t.core.chan c = s.core.chan c := (exec_message_frame hd ht hne.symm).1
      rw [streamOf_cons_other cmds hd hne, if_neg (by simp [hd, hne]), List.nil_append]
      exact ih hcmds t s' htinv hinv' htphase (htsession.trans hs) (hchan.trans hx)
    · have hown : channelOfCommand i = none ∨ channelOfCommand i = some c := by
        cases hd : channelOfCommand i with
        | none => exact .inl rfl
        | some d => exact .inr (congrArg some (by_contra fun hne => hother ⟨d, hd, hne⟩))
      obtain ⟨t', ht', htinv', -, htsession'⟩ := exec_stream hi hinv' ((phase_eq_of_sessionOf hs).symm.trans hphase)
      have hsession : sessionOf t.core = sessionOf t'.core := htsession.trans (hs.trans htsession'.symm)
      rw [streamOf_cons_own cmds hown, execAll_cons_next _ ht', channelResponses_cons c _ ht']
      rcases hown with hnone | hsome
      · have hchan : t.core.chan c = t'.core.chan c := by
          rw [exec_nonmessage_chan hi hnone ht, exec_nonmessage_chan hi hnone ht', hx]
        simpa [hnone] using ih hcmds t t' htinv htinv' htphase hsession hchan
      · obtain ⟨hchan, hresp⟩ := exec_message_congr hsome hs hx ht ht'
        simpa [hsome, hresp] using ih hcmds t t' htinv htinv' htphase hsession hchan

/-- Settles O40: `execAll_streamOf`, both runs from the same state. -/
theorem channelsDoNotInterfere : Obligations.ChannelsDoNotInterfere :=
  fun cmds c s hinv hphase hcmds => execAll_streamOf c cmds hcmds s s hinv hinv hphase rfl rfl

end Sys2Proof.Proofs
end

section
/-! Whole messages (41_chainer.md R113 to R121): each output byte is the input byte XOR the keystream byte of the chaining
word before it, and that word is the last eight bytes of the IV followed by the ciphertext so far. -/

namespace Sys2Proof.Proofs

open Sys2Proof.Machine Sys2Proof.Safety

/-! ### The machine runs a message (R114) -/

section machine

variable {c : Channel} {s : State} {blk : Block → Block}

/-- `START` and the `BYTE` commands of a message, on an idle channel. -/
theorem execAll_start_bytes (m : List Byte) (hphase : s.core.phase = .ready) (ha : (s.core.chan c).active = false)
    (hb : s.core.blockFn = some blk) : execAll (.start c :: m.map (.byte c)) s =
      .next ⟨s.core.setChan c ⟨true, chainAfter blk c (ivWord s.core.iv) m,
          (runBytes blk c (ivWord s.core.iv) m).getLast?.getD (s.core.chan c).dout⟩, s.pending,
        s.responses ++ ([0x0000#16] ++ (runBytes blk c (ivWord s.core.iv) m).map fun o => o.setWidth 16)⟩ := by
  rw [execAll_cons_next _ (exec_start_idle hphase ha),
    execAll_bytes m (by simpa using hphase) (by simp) (by simpa using hb)]
  simp [respWord_zero]

theorem execAll_messageCommands (m : List Byte) (hphase : s.core.phase = .ready)
    (ha : (s.core.chan c).active = false) (hb : s.core.blockFn = some blk) : execAll (messageCommands c m) s =
      .next ⟨s.core.setChan c ⟨false, 0#64, (runBytes blk c (ivWord s.core.iv) m).getLast?.getD (s.core.chan c).dout⟩,
        s.pending, s.responses ++
          ([0x0000#16] ++ (runBytes blk c (ivWord s.core.iv) m).map (fun o => o.setWidth 16) ++ [0x0000#16])⟩ := by
  rw [messageCommands, execAll_append_next _ (execAll_start_bytes m hphase ha hb),
    execAll_cons_next _ (exec_endMsg_active (by simpa using hphase) (by simp))]
  simp [after, respond, respWord_zero]

/-- Settles O41: `execAll_messageCommands`; the chaining word that `END` clears was clear before, by the invariants. -/
theorem messageCommandsComputeRun : Obligations.MessageCommandsComputeRun := by
  intro c m s blk hinv hphase ha hb
  have hidle (x : Byte) : ({ s.core.chan c with dout := x } : ChanCtx) = ⟨false, 0#64, x⟩ := by
    simp only [ha, hinv.idle_chain c ha]
  exact ⟨_, rfl, by rw [execAll_messageCommands m hphase ha hb, hidle]⟩

end machine

/-- Settles O46: the length by induction on the message; `START` then `END` by what each answers. -/
theorem messagesKeepTheirLength : Obligations.MessagesKeepTheirLength := by
  refine ⟨fun blk c chain m => ?_, fun c s hphase ha => ?_⟩
  · induction m generalizing chain with
    | nil => rfl
    | cons b m ih => rw [runBytes_cons, List.length_cons, List.length_cons, ih]
  · rw [execAll_cons_next _ (exec_start_idle hphase ha),
      execAll_cons_next _ (exec_endMsg_active (by simpa using hphase) (by simp))]
    simp [after, respond, respWord_zero]

/-! ### Decoding inverts encoding (R115) -/

/-- One byte: the other direction gives the input back, and both put the same ciphertext byte into the chaining word. -/
theorem cfbStep_inverse (blk : Block → Block) {c d : Channel} (hcd : c ≠ d) (chain : Block) (b : Byte) :
    cfbStep blk d chain (cfbStep blk c chain b).1 = (b, (cfbStep blk c chain b).2) := by
  have hb : b ^^^ keystreamByte (blk chain) ^^^ keystreamByte (blk chain) = b := by
    rw [BitVec.xor_assoc, BitVec.xor_self, BitVec.xor_zero]
  cases c with
  | enc =>
    cases d with
    | enc => exact absurd rfl hcd
    | dec => exact Prod.ext hb rfl
  | dec =>
    cases d with
    | enc => exact Prod.ext hb (congrArg (nextChain chain) hb)
    | dec => exact absurd rfl hcd

theorem runBytes_inverse (blk : Block → Block) {c d : Channel} (hcd : c ≠ d) (chain : Block) (m : List Byte) :
    runBytes blk d chain (runBytes blk c chain m) = m := by
  induction m generalizing chain with
  | nil => rfl
  | cons b m ih => rw [runBytes_cons, runBytes_cons, cfbStep_inverse blk hcd, ih]

/-- Settles O42: equal sessions have one IV and one block function, and then `runBytes_inverse`. -/
theorem decodeInvertsEncode : Obligations.DecodeInvertsEncode := by
  intro c d m s s' blk blk' hcd hs hb hb'
  obtain rfl := Option.some.inj (hb.symm.trans ((blockFn_eq_of_sessionOf hs).trans hb'))
  rw [← iv_eq_of_sessionOf hs, runBytes_inverse blk hcd]

/-! ### The chaining word as a window (R120) -/

/-- One byte shifted into a word that holds `x`. -/
theorem nextChain_setWidth {w : Nat} (x : BitVec w) (b : Byte) :
    nextChain (x.setWidth 64) b = (x ++ b).setWidth 64 := by
  refine BitVec.eq_of_getLsbD_eq fun k hk => ?_
  rw [nextChain, BitVec.getLsbD_or, BitVec.getLsbD_shiftLeft, BitVec.getLsbD_setWidth, BitVec.getLsbD_setWidth,
    BitVec.getLsbD_setWidth, BitVec.getLsbD_append]
  by_cases h8 : k < 8
  · simp [h8, hk]
  · have hk' : k - 8 < 64 := by omega
    have hb : b.getLsbD k = false := BitVec.getLsbD_of_ge b k (by omega)
    simp [h8, hk, hk', hb]

theorem bigEndian_eq_foldl (l : List Byte) : bigEndian l = l.foldl nextChain 0#64 := rfl

/-- Bytes shifted in push the old word up by their length. -/
theorem foldl_nextChain (chain : Block) (l : List Byte) :
    l.foldl nextChain chain = (chain <<< (8 * l.length)) ||| bigEndian l := by
  induction l generalizing chain with
  | nil => simp [bigEndian]
  | cons b l ih =>
    have hshift : (nextChain chain b) <<< (8 * l.length) =
        chain <<< (8 * (l.length + 1)) ||| nextChain 0#64 b <<< (8 * l.length) := by
      simp [nextChain, BitVec.shiftLeft_or_distrib, ← BitVec.shiftLeft_add, Nat.mul_add, Nat.add_comm]
    rw [List.foldl_cons, ih, hshift, bigEndian_eq_foldl (b :: l), List.foldl_cons, ih (nextChain 0#64 b),
      List.length_cons, BitVec.or_assoc]

/-- Eight bytes push the old word out. -/
theorem foldl_nextChain_of_eight_le {l : List Byte} (h : 8 ≤ l.length) (chain : Block) :
    l.foldl nextChain chain = bigEndian l := by
  have hout : chain <<< (8 * l.length) = 0#64 := BitVec.shiftLeft_eq_zero (by omega)
  rw [foldl_nextChain, hout, BitVec.zero_or]

theorem bigEndian_append (l l' : List Byte) : bigEndian (l ++ l') = l'.foldl nextChain (bigEndian l) := by
  rw [bigEndian_eq_foldl, List.foldl_append, bigEndian_eq_foldl]

/-- Only the last eight bytes count. -/
theorem bigEndian_drop {l : List Byte} {n : Nat} (h : n + 8 ≤ l.length) : bigEndian (l.drop n) = bigEndian l := by
  have hlen : 8 ≤ (l.drop n).length := by rw [List.length_drop]; omega
  conv_rhs => rw [← List.take_append_drop n l, bigEndian_append, foldl_nextChain_of_eight_le hlen]

theorem ivWord_eq_bigEndian (iv : IvBytes) : ivWord iv = bigEndian iv.toList := by
  have hlist : iv.toList = [iv[0], iv[1], iv[2], iv[3], iv[4], iv[5], iv[6], iv[7]] :=
    List.ext_getElem (by simp) fun k _ hk => by
      simp only [List.length_cons, List.length_nil] at hk
      interval_cases k <;> simp
  have hfirst : nextChain 0#64 iv[0] = iv[0].setWidth 64 := by simp [nextChain]
  simp only [hlist, bigEndian_eq_foldl, List.foldl_cons, List.foldl_nil, hfirst, nextChain_setWidth]
  exact (BitVec.setWidth_eq _).symm

/-- The chaining word takes in the ciphertext bytes and nothing else. -/
theorem chainAfter_eq_foldl (blk : Block → Block) (c : Channel) (chain : Block) (m : List Byte) :
    chainAfter blk c chain m = (ciphertextOf blk c chain m).foldl nextChain chain := by
  induction m generalizing chain with
  | nil => cases c <;> rfl
  | cons b m ih =>
    rw [chainAfter_cons, ih]
    cases c <;> rfl

theorem ciphertextOf_length (blk : Block → Block) (c : Channel) (chain : Block) (m : List Byte) :
    (ciphertextOf blk c chain m).length = m.length := by
  cases c
  · exact messagesKeepTheirLength.1 blk .enc chain m
  · rfl

/-- Settles O43: the IV's bytes and the ciphertext's shifted in one after the other, of which only the last eight count;
`execAll_start_bytes` for the machine. -/
theorem chainIsASlidingWindow : Obligations.ChainIsASlidingWindow := by
  refine ⟨fun blk c iv m => ?_, fun c m s blk hphase ha hb => ⟨_, execAll_start_bytes m hphase ha hb, ?_, ?_⟩⟩
  · rw [bigEndian_drop (by simp [ciphertextOf_length]; omega), bigEndian_append, ← ivWord_eq_bigEndian,
      chainAfter_eq_foldl]
  · rw [setChan_chan_same]
  · rw [setChan_chan_same]

/-! ### Each output byte by its position (R117, R121) -/

section positions

variable (blk : Block → Block) (c : Channel) (chain : Block) (m : List Byte)

/-- The output byte at a position: the input byte XOR the keystream byte of the chaining word there. -/
theorem runBytes_getElem? (j : Nat) : (runBytes blk c chain m)[j]? =
    m[j]?.map (· ^^^ keystreamByte (blk (chainAfter blk c chain (m.take j)))) := by
  induction m generalizing chain j with
  | nil => simp
  | cons b m ih =>
    rw [runBytes_cons]
    cases j with
    | zero => rfl
    | succ j => exact ih _ j

theorem runBytes_take (p : Nat) : (runBytes blk c chain m).take p = runBytes blk c chain (m.take p) := by
  induction m generalizing chain p with
  | nil => simp
  | cons b m ih =>
    cases p with
    | zero => rfl
    | succ p => rw [runBytes_cons, List.take_succ_cons, List.take_succ_cons, runBytes_cons, ih]

end positions

/-- Settles O44: up to position `p` the messages, so the chaining words and the keystream, are the same. -/
theorem equalPrefixesLeakEqualKeystream : Obligations.EqualPrefixesLeakEqualKeystream := by
  intro blk chain m m' p hp
  refine ⟨by rw [runBytes_take, runBytes_take, hp], fun j b b' o o' hj hb hb' ho ho' => ?_⟩
  have htake : m.take j = m'.take j := by
    rw [← Nat.min_eq_left hj, ← List.take_take, hp, List.take_take]
  rw [runBytes_getElem?, hb, Option.map_some] at ho
  rw [runBytes_getElem?, hb', Option.map_some, ← htake] at ho'
  rw [← Option.some.inj ho, ← Option.some.inj ho', ← BitVec.xor_assoc, ← BitVec.xor_assoc, BitVec.xor_self,
    BitVec.xor_self]

/-- Bytes that agree from position `n` on, eight of them at least, leave the same word. -/
theorem foldl_nextChain_congr {l l' : List Byte} {n : Nat} (hlen : n + 8 ≤ l.length) (h : l.drop n = l'.drop n)
    (chain : Block) : l.foldl nextChain chain = l'.foldl nextChain chain := by
  have hlen' : n + 8 ≤ l'.length := by
    have := congrArg List.length h
    simp only [List.length_drop] at this
    omega
  rw [foldl_nextChain_of_eight_le (by omega), foldl_nextChain_of_eight_le (by omega), ← bigEndian_drop hlen, h,
    bigEndian_drop hlen']

/-- Replacing byte `p` leaves the chaining word as it was up to `p`, and again from nine bytes on. -/
theorem chainAfter_dec_take_set (blk : Block → Block) (chain : Block) {m : List Byte} {p j : Nat} (new : Byte)
    (hj : j ≤ p ∨ p + 9 ≤ j) (hm : j ≤ m.length) :
    chainAfter blk .dec chain ((m.set p new).take j) = chainAfter blk .dec chain (m.take j) := by
  rcases hj with hle | hge
  · rw [List.take_set_of_le hle]
  · rw [chainAfter_eq_foldl, chainAfter_eq_foldl]
    refine foldl_nextChain_congr (n := p + 1) ?_ ?_ chain
    · simp only [ciphertextOf, List.length_take, List.length_set]
      omega
    · simp only [ciphertextOf, List.drop_take, List.drop_set_of_lt (Nat.lt_succ_self p)]

/-- Settles O45: byte by byte (`runBytes_getElem?`), with `chainAfter_dec_take_set` for the keystream. -/
theorem damageEndsAfterNineBytes : Obligations.DamageEndsAfterNineBytes := by
  intro blk chain m p old new hold
  refine ⟨fun j hj => ?_, ?_⟩
  · rw [runBytes_getElem?, runBytes_getElem?, List.getElem?_set_ne (by omega)]
    cases hb : m[j]? with
    | none => rfl
    | some b =>
      have hm : j < m.length := (List.getElem?_eq_some_iff.mp hb).1
      rw [chainAfter_dec_take_set blk chain new (by omega) hm.le]
  · have hm : p < m.length := (List.getElem?_eq_some_iff.mp hold).1
    rw [runBytes_getElem?, runBytes_getElem?, chainAfter_dec_take_set blk chain new (.inl le_rfl) hm.le,
      List.getElem?_set_self hm, hold]
    simp only [Option.map_some, Option.some.injEq]
    generalize keystreamByte _ = ks
    rw [BitVec.xor_comm old ks, BitVec.xor_assoc, ← BitVec.xor_assoc old, BitVec.xor_self, BitVec.zero_xor,
      BitVec.xor_comm]

end Sys2Proof.Proofs
end

section
/-! Building a session (42_session_control.md R133; 70_reset_and_hazards.md section 2): `SETUP` from any state, and `INIT`
for any choice of the OPEN parameters. -/

namespace Sys2Proof.Proofs

open Sys2Proof.Machine Sys2Proof.Safety

/-- Settles O31: the checks pass (`refusal_init_complete`), and the effect is the construction. -/
theorem initHoldsForEveryParameterChoice : Obligations.InitHoldsForEveryParameterChoice := by
  intro p s hphase hk hiv
  have hpass : initRefusal .feistel s.core = none := refusal_init_complete hphase (.inr rfl) hk hiv
  rw [initWith, hpass]
  rfl

/-- The core after `RESET` and the 24 loads. -/
def loadedCore (k : Key) (iv : IvBytes) : CoreState :=
  { CoreState.reset with key := k, kmask := 0xFFFF#16, iv := iv, ivmask := 0xFF#8 }

/-- `LOADKEY` in `UNCONF` before any other load of the key (R70). -/
theorem execAll_loadKey (k : Key) {s : State} (hphase : s.core.phase = .unconf) (hmask : s.core.kmask = 0#16) :
    execAll (loadKeyCommands k) s = .next ⟨{ s.core with key := k, kmask := 0xFFFF#16 }, s.pending,
      s.responses ++ List.replicate 16 0x0000#16⟩ := by
  have hkey := foldl_set_eq k (List.finRange 16) List.mem_finRange s.core.key
  have hfull : (List.finRange 16).foldl (fun m i => m ||| (1#16 <<< i.val)) 0#16 = 0xFFFF#16 := by decide
  rw [loadKeyCommands, execAll_ldk (fun i => k[i]) _ s hphase, loadKeyBytes, hkey, hmask, hfull, List.length_finRange]

/-- `LOADIV` in `UNCONF` before any other load of the IV (R70). -/
theorem execAll_loadIv (iv : IvBytes) {s : State} (hphase : s.core.phase = .unconf) (hmask : s.core.ivmask = 0#8) :
    execAll (loadIvCommands iv) s = .next ⟨{ s.core with iv := iv, ivmask := 0xFF#8 }, s.pending,
      s.responses ++ List.replicate 8 0x0000#16⟩ := by
  have hiv := foldl_set_eq iv (List.finRange 8) List.mem_finRange s.core.iv
  have hfull : (List.finRange 8).foldl (fun m i => m ||| (1#8 <<< i.val)) 0#8 = 0xFF#8 := by decide
  rw [loadIvCommands, execAll_ldiv (fun i => iv[i]) _ s hphase, loadIvBytes, hiv, hmask, hfull, List.length_finRange]

/-- R70's `SETUP` runs to the end: 26 responses, all OK, and the session constructed from the loaded key and IV. -/
theorem execAll_setup {v : Variant} (hv : v = .placeholder ∨ v = .feistel) (k : Key) (iv : IvBytes) (s : State) :
    execAll (Pseudo.expand (.setup v k iv)) s =
      .next ⟨(loadedCore k iv).constructed defaultParams v, s.pending, s.responses ++ List.replicate 26 0x0000#16⟩ := by
  have hkey : execAll (.reset :: loadKeyCommands k) s = _ :=
    (execAll_cons_next _ exec_reset).trans (execAll_loadKey k rfl rfl)
  have hiv : execAll (.reset :: loadKeyCommands k ++ loadIvCommands iv) s = _ :=
    (execAll_append_next _ hkey).trans (execAll_loadIv iv rfl rfl)
  rw [Pseudo.expand, execAll_append_next _ hiv, execAll_cons_next _ (exec_init_complete rfl hv rfl rfl), execAll_nil]
  simp [after, respond, respWord_zero, loadedCore, List.replicate]

/-- `STATUS` of a constructed session: `IVFULL` and `KFULL`, no channel active, the variant, `READY`. -/
theorem statusView_constructed (k : Key) (iv : IvBytes) (p : Params) (v : Variant) :
    ((loadedCore k iv).constructed p v).statusView = 0b1100#4 ++ v.toBits ++ 0b01#2 := by
  have hreset : ((loadedCore k iv).constructed p v).statusView =
      CoreState.statusView
        { CoreState.reset with kmask := 0xFFFF#16, ivmask := 0xFF#8, var := v, phase := .ready } :=
    statusView_eq_iff.mpr ⟨rfl, rfl, rfl, rfl, rfl, rfl⟩
  rw [hreset]
  cases v <;> decide

/-- Settles O47: `execAll_setup`, and the `STATUS` view of what it leaves. -/
theorem setupBuildsAReadySession : Obligations.SetupBuildsAReadySession := by
  intro v k iv s hv
  refine ⟨_, execAll_setup hv k iv s, rfl, rfl, rfl, rfl, rfl, rfl, rfl, ?_, rfl⟩
  rw [statusView_constructed]
  rcases hv with rfl | rfl <;> rfl

end Sys2Proof.Proofs
end

section
/-! The cipher's functions (40_block_primitive.md R93 to R101): the lane law, which makes the Feistel block function two
independent halves and no permutation, the closed form of the Placeholder, and the schedule's recurrence. -/

namespace Sys2Proof.Proofs

open Sys2Proof.Machine Sys2Proof.Safety

/-! ### The lane law (R95) -/

@[simp] theorem lane_cons (a k : Half) (ks : List Half) : lane a (k :: ks) = lane (g a ^^^ k) ks := rfl

/-- `n` pairs of rounds: the left half takes the even keys, the right half the odd ones. -/
theorem feistelRounds_pairs (n : Nat) (key : Fin (2 * n) → Half) (l r : Half) :
    feistelRounds (List.ofFn key) (l, r) =
      (lane l (List.ofFn fun t : Fin n => key ⟨2 * t.val, by omega⟩),
        lane r (List.ofFn fun t : Fin n => key ⟨2 * t.val + 1, by omega⟩)) := by
  induction n generalizing l r with
  | zero => rfl
  | succ n ih =>
    have htwo : List.ofFn key = key ⟨0, by omega⟩ :: key ⟨1, by omega⟩ ::
        List.ofFn fun i : Fin (2 * n) => key ⟨i.val + 2, by omega⟩ := by
      rw [List.ofFn_congr (Nat.mul_succ 2 n), List.ofFn_succ, List.ofFn_succ]
      rfl
    rw [htwo, feistelRounds_two, ih, List.ofFn_succ, List.ofFn_succ]
    rfl

/-- The even round keys (R95). -/
def evenKeys (rk : RoundKeys) : List Half := List.ofFn fun t : Fin 16 => rk[2 * t.val]'(by omega)

/-- The odd round keys (R95). -/
def oddKeys (rk : RoundKeys) : List Half := List.ofFn fun t : Fin 16 => rk[2 * t.val + 1]'(by omega)

theorem feistelBlock_eq_lanes (x : Block) (rk : RoundKeys) : feistelBlock x rk =
    lane (x.extractLsb' 32 32) (evenKeys rk) ++ lane (x.extractLsb' 0 32) (oddKeys rk) := by
  have hkeys : rk.toList = List.ofFn fun i : Fin (2 * 16) => rk[i.val]'i.isLt :=
    List.ext_getElem (by simp) fun k _ _ => by rw [Vector.getElem_toList, List.getElem_ofFn]
  rw [feistelBlock, hkeys, feistelRounds_pairs]
  rfl

/-- Settles O50: the two halves of `feistelBlock_eq_lanes`. -/
theorem feistelHalvesNeverMix : Obligations.FeistelHalvesNeverMix := by
  intro x rk
  rw [feistelBlock_eq_lanes]
  exact ⟨BitVec.extractLsb'_append_eq_left, BitVec.extractLsb'_append_eq_right⟩

/-- Settles O51: `G` of zero and of all ones are both zero, so the first step of the upper lane maps those two alike. -/
theorem feistelIsNotAPermutation : Obligations.FeistelIsNotAPermutation := by
  intro rk hinj
  have hfirst (a : Half) : lane a (evenKeys rk) = lane (g a ^^^ rk[0]) (evenKeys rk).tail := rfl
  have hg : g 0xFFFFFFFF#32 = g 0x00000000#32 := by decide
  have hsame : feistelBlock 0xFFFFFFFF00000000#64 rk = feistelBlock 0x0000000000000000#64 rk := by
    have hhigh : (0xFFFFFFFF00000000#64).extractLsb' 32 32 = 0xFFFFFFFF#32 := by decide
    have hlow : (0xFFFFFFFF00000000#64).extractLsb' 0 32 = 0#32 := by decide
    rw [feistelBlock_eq_lanes, feistelBlock_eq_lanes, hhigh, hlow, hfirst, hg, ← hfirst]
    rfl
  exact absurd (hinj hsame) (by decide)

/-! ### The Placeholder (R96) -/

/-- `KK` for `n` rounds: the XOR of the key integer shifted by `0` to `n - 1`. -/
def shiftedKeys (k : Block) (n : Nat) : Block := (List.range n).foldl (fun acc i => acc ^^^ (k <<< i)) 0#64

theorem shiftedKeys_succ (k : Block) (n : Nat) : shiftedKeys k (n + 1) = shiftedKeys k n ^^^ (k <<< n) := by
  rw [shiftedKeys, List.range_succ, List.foldl_append]
  rfl

theorem placeholderRounds_eq (k : Block) (n : Nat) (x : Block) :
    placeholderRounds k n x = (x <<< n) ^^^ shiftedKeys k n := by
  induction n generalizing x with
  | zero => simp [placeholderRounds, shiftedKeys]
  | succ n ih =>
    rw [placeholderRounds_succ, ih, shiftedKeys_succ, BitVec.shiftLeft_xor_distrib, ← BitVec.shiftLeft_add,
      Nat.add_comm 1 n, BitVec.xor_assoc, BitVec.xor_comm (k <<< n)]

/-- Settles O52: `placeholderRounds_eq` for 32 rounds. -/
theorem placeholderClosedForm : Obligations.PlaceholderClosedForm := fun x k => placeholderRounds_eq k 32 x

/-! ### The keystream byte (R118) -/

/-- The top byte of a block is the top byte of its upper half. -/
theorem keystreamByte_append (l r : Half) : keystreamByte (l ++ r) = l.extractLsb' 24 8 := by
  refine BitVec.eq_of_getLsbD_eq fun k hk => ?_
  have h32 : ¬ 56 + k < 32 := by omega
  have hk' : 56 + k - 32 = 24 + k := by omega
  rw [keystreamByte, BitVec.getLsbD_extractLsb', BitVec.getLsbD_extractLsb', BitVec.getLsbD_append, if_neg h32, hk']

theorem keystreamByte_xor (x y : Block) : keystreamByte (x ^^^ y) = keystreamByte x ^^^ keystreamByte y :=
  BitVec.extractLsb'_xor

theorem keystreamByte_shiftLeft (x : Block) : keystreamByte (x <<< 32) = x.extractLsb' 24 8 := by
  refine BitVec.eq_of_getLsbD_eq fun k hk => ?_
  have h32 : ¬ 56 + k < 32 := by omega
  have h64 : 56 + k < 64 := by omega
  have hk' : 56 + k - 32 = 24 + k := by omega
  rw [keystreamByte, BitVec.getLsbD_extractLsb', BitVec.getLsbD_extractLsb', BitVec.getLsbD_shiftLeft, hk']
  simp [h32, h64]

/-- Settles O53: the lane law for `FEISTEL`, the closed form for `PLACEHOLDER`. -/
theorem keystreamDependsOnHalfTheChain : Obligations.KeystreamDependsOnHalfTheChain := by
  refine ⟨fun x x' rk rk' hx hrk => ?_, fun x k => ?_⟩
  · have heven : evenKeys rk = evenKeys rk' := congrArg List.ofFn (funext hrk)
    rw [feistelBlock_eq_lanes, feistelBlock_eq_lanes, keystreamByte_append, keystreamByte_append, hx, heven]
  · rw [placeholderClosedForm, keystreamByte_xor, keystreamByte_shiftLeft]

/-! ### The key schedule (R98) -/

/-- The first four round keys are the words the schedule starts from. -/
theorem scheduleRounds_first {cs : List Half} (hcs : 4 ≤ cs.length) (w : ScheduleWords) (j : Fin 4) :
    (scheduleRounds cs w)[j.val]? = some (![w.w0, w.w1, w.w2, w.w3] j) := by
  match cs, hcs with
  | _ :: _ :: _ :: _ :: _, _ => fin_cases j <;> rfl

/-- Each later one is `G` of the third before it XOR its constant. -/
theorem scheduleRounds_recurrence (cs : List Half) (w : ScheduleWords) (i : Nat) (hi : i + 4 < cs.length) :
    (scheduleRounds cs w)[i + 4]? = (scheduleRounds cs w)[i + 1]?.bind fun k => cs[i]?.map fun c => g k ^^^ c := by
  induction i generalizing cs w with
  | zero =>
    match cs, hi with
    | _ :: _ :: _ :: _ :: _ :: _, _ => rfl
  | succ i ih =>
    match cs, hi with
    | c :: cs, hi => exact ih cs _ (Nat.lt_of_succ_lt_succ hi)

theorem keySchedule_getElem (rc : RcTable) (key : Key) {i : Nat} (hi : i < 32) :
    (scheduleRounds rc.toList (startWords key))[i]? = some (keySchedule rc key)[i] := by
  rw [List.getElem?_eq_getElem (by simpa [scheduleRounds_length] using hi)]
  rfl

theorem startWords_eq_keyWord (key : Key) (j : Fin 4) :
    ![(startWords key).w0, (startWords key).w1, (startWords key).w2, (startWords key).w3] j = keyWord key j := by
  fin_cases j <;> rfl

/-- Settles O54: `scheduleRounds_first`, `scheduleRounds_recurrence`, for the 32 constants of the table. -/
theorem scheduleRecurrence : Obligations.ScheduleRecurrence := by
  refine fun rc key => ⟨fun j => ?_, fun i => ?_⟩
  · have hfirst := scheduleRounds_first (by simp : 4 ≤ rc.toList.length) (startWords key) j
    rw [keySchedule_getElem rc key (by omega), startWords_eq_keyWord] at hfirst
    exact Option.some.inj hfirst
  · have hlater := scheduleRounds_recurrence rc.toList (startWords key) i
      (by rw [Vector.length_toList]; omega)
    have hc : rc.toList[i.val]? = some (rc[i.val]'(by omega)) := by simp
    rw [keySchedule_getElem rc key (by omega), keySchedule_getElem rc key (by omega), hc] at hlater
    exact Option.some.inj hlater

end Sys2Proof.Proofs
end
